-- ==== Sys2Proof/Word.lean ====
section
/-! DEFINITION. The word types of the machine (`00_scope.md` rule R6: bit 0 is the least significant bit). -/

namespace Sys2Proof

/-- A byte of memory or of an instruction. -/
abbrev Byte := BitVec 8

/-- A 64-bit value: a general register, `rIP`, a linear address (`10_state.md` rules R21, R23, R35). -/
abbrev Word := BitVec 64

/-- A process-context identifier, `000H` to `FFFH` (`00_scope.md` rule R11). -/
abbrev Pcid := BitVec 12

/-- The 128-bit INVPCID descriptor (`40_invpcid.md` rule R123). -/
abbrev Descriptor := BitVec 128

end Sys2Proof
end

