-- ==== Sys2Proof/Config.lean ====
section
/-! DEFINITION. What an implementation fixes (`00_scope.md` rule R5) and the free values the spec leaves open.
The parameters are plain data that `State` carries and no step changes, so that every statement is for all their values
and still has concrete witnesses (DESIGN CHOICE, log entries 1 and 4). The free values are opaque: nothing can be proved of them. -/

namespace Sys2Proof

/-- The five operating modes the source names (`10_state.md` rule R25). -/
inductive Mode
  | realAddress
  | protectedMode
  | virtual8086
  | compatibility
  | sixtyFourBit
  deriving DecidableEq, Repr

/-- A closed range of numbers, `lo` to `hi`: linear addresses, physical addresses or offsets, as its use says. -/
structure AddrRange where
  lo : Nat
  hi : Nat
  deriving DecidableEq, Repr

/-- Where a cached mapping sits: a TLB or a paging-structure cache (`10_state.md` rule R31). -/
inductive CacheKind
  | tlb
  | psc
  deriving DecidableEq, Repr

/-- One cached mapping (`10_state.md` rule R31). `region` is the set of linear addresses the mapping is "for", as a union
of ranges. `payload` stands for whatever else the entry caches; nothing reads it. -/
structure CacheEntry where
  kind : CacheKind
  pcid : Pcid
  isGlobal : Bool
  region : List AddrRange
  payload : Nat
  deriving DecidableEq, Repr

/-- The kind of access presented to `translate`: the operand read of `20_memory.md` rule R58, or the fetch of rule R67. -/
inductive Access
  | read
  | fetch
  deriving DecidableEq, Repr

/-- What `translate` answers (`20_memory.md` rule R58): a physical address, or a page fault with its code. Neither the
width of a physical address nor the layout of the code is in the source, so both are numbers. -/
inductive XlatResult
  | phys (address : Nat)
  | pageFault (code : Nat)
  deriving DecidableEq, Repr

/-- One rule of the translation map: it covers the linear addresses of `range`, for one kind of access and one privilege
level or for all (`none`), always (`none`) or only while the translation caches hold exactly `whenTc`. A covered address
`la` goes to `address + (la - lo)`, or page-faults. DESIGN CHOICE, log entry 4. -/
structure XlatRule where
  range : AddrRange
  access : Option Access
  cpl : Option (Fin 4)
  whenTc : Option (List CacheEntry)
  result : XlatResult
  deriving DecidableEq, Repr

/-- The translation of an address no rule covers: itself, or a page fault. -/
inductive XlatDefault
  | identity
  | pageFault (code : Nat)
  deriving DecidableEq, Repr

/-- The parameter `translate` of `20_memory.md` rule R58 as data: the first rule that covers the access decides. -/
structure Translation where
  rules : List XlatRule
  otherwise : XlatDefault
  deriving DecidableEq, Repr

/-- The parameter `FAULT_ORDER` (`00_scope.md` rule R5): which exception is reported when several apply,
`60_exceptions.md` rule R168. -/
inductive FaultOrder
  /-- R168 (c): any member of `Reportable`, a free choice. -/
  | anyReportable
  /-- R168 (d): the default order. -/
  | defaultOrder
  deriving DecidableEq, Repr

/-- The constants of the processor (`00_scope.md` rule R5). -/
structure Config where
  /-- `CPUID.(EAX=07H, ECX=0H):EBX` bit 10 (`10_state.md` rule R29). -/
  hasInvpcid : Bool
  /-- `LA_WIDTH`, used for the operand's own address (`20_memory.md` rule R59). -/
  laWidth : Nat
  /-- `LA_WIDTH_DESC`, used for the descriptor's linear address (`20_memory.md` rule R59). -/
  laWidthDesc : Nat
  /-- `FAULT_ORDER`. -/
  faultOrder : FaultOrder
  deriving DecidableEq, Repr

/-- FREE VALUE (log entry 8): whether an entry outside the must-set survives the execution with this draw,
`40_invpcid.md` rule R129 ("In some cases, the instruction may invalidate ..."). -/
opaque Config.survives : Nat → CacheEntry → Bool

/-- FREE VALUE (log entry 7): which member of `Reportable` the execution with this draw reports,
`60_exceptions.md` rule R168 (c). -/
opaque Config.faultPick : Nat → Nat

/-- FREE VALUE (log entry 9): `rIP` after an instruction that ends past the top of the instruction-pointer space,
which `10_state.md` rule R23 leaves open. -/
opaque Config.ripPastTop : Nat → Word

/-- FREE VALUE (log entry 18): the oracle answer of `20_memory.md` rule R61 for byte `index` of the operand at a physical
address that another agent may write, in the execution with this draw. -/
opaque Config.oracleByte : (draw index address : Nat) → Byte

end Sys2Proof
end

