-- ==== Sys2Proof/Syntax.lean ====
section
/-! DEFINITION. The instructions as syntax: both rows of `spec/opcode_table.json`, with every part of the byte string of
`30_encoding.md` rule R80 that the decoder reads. -/

namespace Sys2Proof

/-- The six segment registers (`10_state.md` rule R30). -/
inductive SegReg
  | cs
  | ss
  | ds
  | es
  | fs
  | gs
  deriving DecidableEq, Repr

/-- The sixteen general registers, in the order of their numbers (`10_state.md` rule R21). -/
inductive Reg
  | rax
  | rcx
  | rdx
  | rbx
  | rsp
  | rbp
  | rsi
  | rdi
  | r8
  | r9
  | r10
  | r11
  | r12
  | r13
  | r14
  | r15
  deriving DecidableEq, Repr

/-- A legacy prefix (`30_encoding.md` rules R80, R89, R90, R91): `66`, `67`, `F0`, or a segment override. -/
inductive Prefix
  | mandatory66
  | addressSize67
  | lock
  | seg (r : SegReg)
  deriving DecidableEq, Repr

/-- The REX byte `0100WRXB` (`30_encoding.md` rule R92). -/
structure Rex where
  w : Bool
  r : Bool
  x : Bool
  b : Bool
  deriving DecidableEq, Repr

/-- The three address sizes (`30_encoding.md` rule R89). -/
inductive AddrSize
  | a16
  | a32
  | a64
  deriving DecidableEq, Repr

/-- The displacement after a base: none (`mod = 00`), one byte (`mod = 01`) or `w` bits (`mod = 10`)
(`30_encoding.md` rule R88). -/
inductive Disp (w : Nat)
  | none
  | short (v : BitVec 8)
  | long (v : BitVec w)
  deriving DecidableEq, Repr

/-- The eight base combinations of 16-bit addressing, in the order of `rm` (`30_encoding.md` rule R85). -/
inductive Base16
  | bxSi
  | bxDi
  | bpSi
  | bpDi
  | si
  | di
  | bp
  | bx
  deriving DecidableEq, Repr

/-- A 16-bit memory operand (`30_encoding.md` rule R85): a base combination with a displacement, or `d16` alone. -/
inductive Ea16
  | based (b : Base16) (d : Disp 16)
  | absolute (d : BitVec 16)
  deriving DecidableEq, Repr

/-- A 32- or 64-bit memory operand (`30_encoding.md` rules R86, R87), registers by the three bits of their field:
`rm` as base; `mod = 00, rm = 101` (a bare or RIP-relative `d32`); a SIB byte; a SIB byte with `mod = 00, base = 101`. -/
inductive EaLong
  | based (rm : BitVec 3) (d : Disp 32)
  | disp32 (d : BitVec 32)
  | sib (scale : BitVec 2) (index base : BitVec 3) (d : Disp 32)
  | sibNoBase (scale : BitVec 2) (index : BitVec 3) (d : BitVec 32)
  deriving DecidableEq, Repr

/-- The memory operand `ModRM:r/m` with the address size it was decoded for. -/
inductive MemOperand
  | addr16 (ea : Ea16)
  | addr32 (ea : EaLong)
  | addr64 (ea : EaLong)
  deriving DecidableEq, Repr

/-- The two forms of INVPCID (`40_invpcid.md` rules R120, R121): the legacy prefixes in their order, the REX prefix where
there is one, the bits `ModRM.reg` and the memory operand. -/
inductive Instr
  | invpcidR32 (prefixes : List Prefix) (reg : BitVec 3) (mem : MemOperand)
  | invpcidR64 (prefixes : List Prefix) (rex : Option Rex) (reg : BitVec 3) (mem : MemOperand)
  deriving DecidableEq, Repr

end Sys2Proof
end

