-- ==== Sys2Proof/Machine/Form.lean ====
section
/-! DEFINITION. What the form of an instruction fixes before it runs: its prefixes, its address size
(`30_encoding.md` rule R89) and its length (rule R94). -/

namespace Sys2Proof

/-- The number of bits of an address size. -/
def AddrSize.bits : AddrSize → Nat
  | .a16 => 16
  | .a32 => 32
  | .a64 => 64

/-- Is the prefix a segment override? -/
def Prefix.isSeg : Prefix → Bool
  | .seg _ => true
  | _ => false

/-- `F0` stands among the legacy prefixes (`30_encoding.md` rule R91). -/
def lockPresent (ps : List Prefix) : Bool := ps.contains .lock

/-- `67` stands among the legacy prefixes. -/
def addressPrefixPresent (ps : List Prefix) : Bool := ps.contains .addressSize67

/-- The segment override, where there is one (`30_encoding.md` rule R90). -/
def segOverride : List Prefix → Option SegReg
  | [] => none
  | .seg r :: _ => some r
  | _ :: ps => segOverride ps

/-- The code segment is a 16-bit one: real-address and virtual-8086 modes, or `CS.D = 0` in protected and compatibility
modes (`30_encoding.md` rule R89; `10_state.md` rule R27). -/
def code16 (m : Mode) (csD : Bool) : Bool :=
  match m with
  | .realAddress => true
  | .virtual8086 => true
  | .protectedMode => !csD
  | .compatibility => !csD
  | .sixtyFourBit => false

/-- The address size (`30_encoding.md` rule R89): by mode and `CS.D`, changed by the `67` prefix. -/
def addressSize (m : Mode) (csD : Bool) (prefix67 : Bool) : AddrSize :=
  if m = .sixtyFourBit then (if prefix67 then .a32 else .a64)
  else if code16 m csD then (if prefix67 then .a32 else .a16)
  else (if prefix67 then .a16 else .a32)

/-- The address size a memory operand was decoded for. -/
def MemOperand.size : MemOperand → AddrSize
  | .addr16 _ => .a16
  | .addr32 _ => .a32
  | .addr64 _ => .a64

/-- The bytes of a displacement (`30_encoding.md` rule R88). -/
def Disp.bytes {w : Nat} : Disp w → Nat
  | .none => 0
  | .short _ => 1
  | .long _ => w / 8

/-- The bytes a 16-bit operand takes after ModRM. -/
def Ea16.bytes : Ea16 → Nat
  | .based _ d => d.bytes
  | .absolute _ => 2

/-- The bytes a 32- or 64-bit operand takes after ModRM: the SIB byte and the displacement. -/
def EaLong.bytes : EaLong → Nat
  | .based _ d => d.bytes
  | .disp32 _ => 4
  | .sib _ _ _ d => 1 + d.bytes
  | .sibNoBase _ _ _ => 5

/-- The bytes a memory operand takes after ModRM. -/
def MemOperand.bytes : MemOperand → Nat
  | .addr16 ea => ea.bytes
  | .addr32 ea => ea.bytes
  | .addr64 ea => ea.bytes

/-- `len` (`30_encoding.md` rule R94): legacy prefixes, REX, three opcode bytes, ModRM, SIB and displacement. -/
def invpcidLength (ps : List Prefix) (rex : Option Rex) (mem : MemOperand) : Nat :=
  ps.length + (if rex.isSome then 1 else 0) + 4 + mem.bytes

/-- `len` of an instruction. -/
def Instr.length : Instr → Nat
  | .invpcidR32 ps _ mem => invpcidLength ps none mem
  | .invpcidR64 ps rex _ mem => invpcidLength ps rex mem

/-- The legacy prefixes of an instruction. -/
def Instr.prefixes : Instr → List Prefix
  | .invpcidR32 ps _ _ => ps
  | .invpcidR64 ps _ _ _ => ps

/-- The memory operand of an instruction. -/
def Instr.mem : Instr → MemOperand
  | .invpcidR32 _ _ mem => mem
  | .invpcidR64 _ _ _ mem => mem

/-- The form is valid in the mode (`30_encoding.md` rule R95): `r64` in 64-bit mode, `r32` in every other. -/
def Instr.validIn : Instr → Mode → Bool
  | .invpcidR32 _ _ _, m => decide (m ≠ .sixtyFourBit)
  | .invpcidR64 _ _ _ _, m => decide (m = .sixtyFourBit)

end Sys2Proof
end

