-- ==== Sys2Proof/WellFormed.lean ====
section
/-! DEFINITION. Which instructions the encoding admits in a mode: one check for each condition of
`30_encoding.md` rules R81 to R95. -/

namespace Sys2Proof

/-- Exactly one `66` (`30_encoding.md` rules R81, R93). -/
def oneMandatoryPrefix (ps : List Prefix) : Bool := ps.count .mandatory66 == 1

/-- At most one `67` (`30_encoding.md` rule R93). -/
def atMostOneAddressPrefix (ps : List Prefix) : Bool := decide (ps.count .addressSize67 ≤ 1)

/-- At most one segment override (`30_encoding.md` rules R90, R93). -/
def atMostOneSegPrefix (ps : List Prefix) : Bool := decide (ps.countP Prefix.isSeg ≤ 1)

/-- `BP` alone cannot be a base without a displacement: `mod = 00, rm = 110` is `d16` (`30_encoding.md` rule R85). -/
def Ea16.wellFormed : Ea16 → Bool
  | .based .bp .none => false
  | _ => true

/-- `rm = 100` takes a SIB byte; `rm = 101`, and `base = 101` of a SIB byte, need a displacement
(`30_encoding.md` rules R86, R87). -/
def EaLong.wellFormed : EaLong → Bool
  | .based rm d => decide (rm ≠ 4#3) && (decide (rm ≠ 5#3) || decide (d ≠ .none))
  | .disp32 _ => true
  | .sib _ _ base d => decide (base ≠ 5#3) || decide (d ≠ .none)
  | .sibNoBase _ _ _ => true

/-- The memory operand is one that a ModRM byte can name. -/
def MemOperand.wellFormed : MemOperand → Bool
  | .addr16 ea => ea.wellFormed
  | .addr32 ea => ea.wellFormed
  | .addr64 ea => ea.wellFormed

/-- The instruction can stand in a byte string in mode `m` with this `CS.D`: the form is encodable in the mode, the prefixes
are those of rule R93, the operand has the address size of rule R89 and a shape ModRM can name, and the length is at
most 15 (rule R94). -/
def Instr.wellFormed (m : Mode) (csD : Bool) (i : Instr) : Bool :=
  i.validIn m
    && oneMandatoryPrefix i.prefixes
    && atMostOneAddressPrefix i.prefixes
    && atMostOneSegPrefix i.prefixes
    && decide (i.mem.size = addressSize m csD (addressPrefixPresent i.prefixes))
    && i.mem.wellFormed
    && decide (i.length ≤ 15)

end Sys2Proof
end

