-- ==== Sys2Proof/Decode.lean ====
section
/-! DEFINITION. The decoder of `30_encoding.md` rule R100, total on any byte string, the encoder, and the reading of a word
numbered as `spec/opcode_table.json` numbers it. -/

namespace Sys2Proof

/-- Why a byte string that reaches the opcode bytes is not given a meaning (`30_encoding.md` rules R84, R93, R94). -/
inductive DecodeRefusal
  /-- Two `66`, two `67` or two segment overrides (R93). -/
  | prefixes
  /-- `ModRM.mod = 11` (R84). -/
  | registerOperand
  /-- Longer than 15 bytes (R94). -/
  | tooLong
  deriving DecidableEq, Repr

/-- What the decoder answers (`30_encoding.md` rule R100): an instruction and the bytes after it, a refusal, "not INVPCID",
or "the string ends early". -/
inductive DecodeResult
  | instr (i : Instr) (rest : List Byte)
  | refused (why : DecodeRefusal)
  | notInvpcid
  | incomplete
  deriving DecidableEq, Repr

/-- The segment override bytes (`30_encoding.md` rule R90). -/
def segPrefixByte : SegReg → Byte
  | .es => 0x26#8
  | .cs => 0x2E#8
  | .ss => 0x36#8
  | .ds => 0x3E#8
  | .fs => 0x64#8
  | .gs => 0x65#8

/-- The byte of a legacy prefix (`30_encoding.md` rules R81, R89, R90, R91). -/
def Prefix.byte : Prefix → Byte
  | .mandatory66 => 0x66#8
  | .addressSize67 => 0x67#8
  | .lock => 0xF0#8
  | .seg r => segPrefixByte r

/-- The legacy prefix a byte is, if it is one. -/
def prefixOfByte (b : Byte) : Option Prefix :=
  if b = 0x66#8 then some .mandatory66
  else if b = 0x67#8 then some .addressSize67
  else if b = 0xF0#8 then some .lock
  else if b = 0x26#8 then some (.seg .es)
  else if b = 0x2E#8 then some (.seg .cs)
  else if b = 0x36#8 then some (.seg .ss)
  else if b = 0x3E#8 then some (.seg .ds)
  else if b = 0x64#8 then some (.seg .fs)
  else if b = 0x65#8 then some (.seg .gs)
  else none

/-- The longest run of legacy prefixes, and the bytes after it. -/
def takePrefixes : List Byte → List Prefix × List Byte
  | [] => ([], [])
  | b :: bs =>
    match prefixOfByte b with
    | some p => (p :: (takePrefixes bs).1, (takePrefixes bs).2)
    | none => ([], b :: bs)

/-- One bit as a Bool. -/
def Byte.bit (b : Byte) (i : Nat) : Bool := b.getLsbD i

/-- The REX byte (`30_encoding.md` rule R92). -/
def Rex.byte (x : Rex) : Byte :=
  (4#4 ++ BitVec.ofBool x.w ++ BitVec.ofBool x.r ++ BitVec.ofBool x.x ++ BitVec.ofBool x.b).setWidth 8

/-- The REX prefix a byte `40`..`4F` is. -/
def rexOfByte (b : Byte) : Option Rex :=
  if b.extractLsb' 4 4 = 4#4 then some ⟨Byte.bit b 3, Byte.bit b 2, Byte.bit b 1, Byte.bit b 0⟩ else none

/-- A REX prefix at the head of the string, in 64-bit mode only (`30_encoding.md` rule R92). -/
def takeRex (m : Mode) (bs : List Byte) : Option Rex × List Byte :=
  match m, bs with
  | .sixtyFourBit, b :: rest =>
    match rexOfByte b with
    | some x => (some x, rest)
    | none => (none, b :: rest)
  | _, _ => (none, bs)

/-- The three opcode bytes `0F 38 82` (`30_encoding.md` rule R81). -/
def opcodeBytes : List Byte := [0x0F#8, 0x38#8, 0x82#8]

/-- One displacement byte. -/
def take8 : List Byte → Option (BitVec 8 × List Byte)
  | b :: bs => some (b, bs)
  | [] => none

/-- Two displacement bytes, little-endian (`30_encoding.md` rule R88). -/
def take16 : List Byte → Option (BitVec 16 × List Byte)
  | b0 :: b1 :: bs => some ((b1 ++ b0).setWidth 16, bs)
  | _ => none

/-- Four displacement bytes, little-endian (`30_encoding.md` rule R88). -/
def take32 : List Byte → Option (BitVec 32 × List Byte)
  | b0 :: b1 :: b2 :: b3 :: bs => some ((b3 ++ b2 ++ b1 ++ b0).setWidth 32, bs)
  | _ => none

/-- The bytes of a two-byte displacement, least significant first. -/
def bytes16 (v : BitVec 16) : List Byte := [v.extractLsb' 0 8, v.extractLsb' 8 8]

/-- The bytes of a four-byte displacement, least significant first. -/
def bytes32 (v : BitVec 32) : List Byte :=
  [v.extractLsb' 0 8, v.extractLsb' 8 8, v.extractLsb' 16 8, v.extractLsb' 24 8]

/-- The displacement `mod` calls for after a base (`30_encoding.md` rule R88), 16-bit addressing. -/
def takeDisp16 (mod : BitVec 2) (bs : List Byte) : Option (Disp 16 × List Byte) :=
  if mod = 1#2 then (take8 bs).map fun (v, r) => (.short v, r)
  else if mod = 2#2 then (take16 bs).map fun (v, r) => (.long v, r)
  else some (.none, bs)

/-- The displacement `mod` calls for after a base (`30_encoding.md` rule R88), 32- and 64-bit addressing. -/
def takeDisp32 (mod : BitVec 2) (bs : List Byte) : Option (Disp 32 × List Byte) :=
  if mod = 1#2 then (take8 bs).map fun (v, r) => (.short v, r)
  else if mod = 2#2 then (take32 bs).map fun (v, r) => (.long v, r)
  else some (.none, bs)

/-- The base combination a value of `rm` names (`30_encoding.md` rule R85). -/
def base16OfRm (rm : BitVec 3) : Base16 :=
  match rm.toNat with
  | 0 => .bxSi
  | 1 => .bxDi
  | 2 => .bpSi
  | 3 => .bpDi
  | 4 => .si
  | 5 => .di
  | 6 => .bp
  | _ => .bx

/-- The value of `rm` for a base combination (`30_encoding.md` rule R85). -/
def Base16.rm : Base16 → BitVec 3
  | .bxSi => 0#3
  | .bxDi => 1#3
  | .bpSi => 2#3
  | .bpDi => 3#3
  | .si => 4#3
  | .di => 5#3
  | .bp => 6#3
  | .bx => 7#3

/-- The operand of 16-bit addressing (`30_encoding.md` rule R85); `none` when the string ends early. -/
def decodeEa16 (mod : BitVec 2) (rm : BitVec 3) (bs : List Byte) : Option (Ea16 × List Byte) :=
  if mod = 0#2 ∧ rm = 6#3 then (take16 bs).map fun (v, r) => (.absolute v, r)
  else (takeDisp16 mod bs).map fun (d, r) => (.based (base16OfRm rm) d, r)

/-- The operand after a SIB byte (`30_encoding.md` rules R86, R87). -/
def decodeSib (mod : BitVec 2) (sib : Byte) (bs : List Byte) : Option (EaLong × List Byte) :=
  if mod = 0#2 ∧ sib.extractLsb' 0 3 = 5#3 then
    (take32 bs).map fun (v, r) => (.sibNoBase (sib.extractLsb' 6 2) (sib.extractLsb' 3 3) v, r)
  else
    (takeDisp32 mod bs).map fun (d, r) =>
      (.sib (sib.extractLsb' 6 2) (sib.extractLsb' 3 3) (sib.extractLsb' 0 3) d, r)

/-- The operand of 32- and 64-bit addressing (`30_encoding.md` rules R86, R87). -/
def decodeEaLong (mod : BitVec 2) (rm : BitVec 3) (bs : List Byte) : Option (EaLong × List Byte) :=
  if rm = 4#3 then
    match bs with
    | sib :: rest => decodeSib mod sib rest
    | [] => none
  else if mod = 0#2 ∧ rm = 5#3 then (take32 bs).map fun (v, r) => (.disp32 v, r)
  else (takeDisp32 mod bs).map fun (d, r) => (.based rm d, r)

/-- The memory operand, by address size (`30_encoding.md` rules R85 to R87). -/
def decodeMem (size : AddrSize) (mod : BitVec 2) (rm : BitVec 3) (bs : List Byte) : Option (MemOperand × List Byte) :=
  match size with
  | .a16 => (decodeEa16 mod rm bs).map fun (ea, r) => (.addr16 ea, r)
  | .a32 => (decodeEaLong mod rm bs).map fun (ea, r) => (.addr32 ea, r)
  | .a64 => (decodeEaLong mod rm bs).map fun (ea, r) => (.addr64 ea, r)

/-- The instruction with the form the mode selects (`30_encoding.md` rule R95). -/
def mkInstr (m : Mode) (ps : List Prefix) (rex : Option Rex) (reg : BitVec 3) (mem : MemOperand) : Instr :=
  if m = .sixtyFourBit then .invpcidR64 ps rex reg mem else .invpcidR32 ps reg mem

/-- From ModRM on: `mod = 11` is refused, then the operand, then the length (`30_encoding.md` rule R100). -/
def decodeFromModrm (m : Mode) (csD : Bool) (ps : List Prefix) (rex : Option Rex) : List Byte → DecodeResult
  | [] => .incomplete
  | modrm :: bs =>
    if modrm.extractLsb' 6 2 = 3#2 then .refused .registerOperand
    else
      match decodeMem (addressSize m csD (addressPrefixPresent ps)) (modrm.extractLsb' 6 2) (modrm.extractLsb' 0 3) bs with
      | none => .incomplete
      | some (mem, rest) =>
        if invpcidLength ps rex mem ≤ 15 then .instr (mkInstr m ps rex (modrm.extractLsb' 3 3) mem) rest
        else .refused .tooLong

/-- After the opcode bytes: the count of each prefix (`30_encoding.md` rules R81, R93, R100). -/
def decodeAfterOpcode (m : Mode) (csD : Bool) (ps : List Prefix) (rex : Option Rex) (bs : List Byte) : DecodeResult :=
  if ps.count .mandatory66 = 0 then .notInvpcid
  else if oneMandatoryPrefix ps && atMostOneAddressPrefix ps && atMostOneSegPrefix ps then decodeFromModrm m csD ps rex bs
  else .refused .prefixes

/-- The opcode bytes. A string that ends inside them ends early. -/
def decodeOpcode (m : Mode) (csD : Bool) (ps : List Prefix) (rex : Option Rex) : List Byte → DecodeResult
  | b0 :: b1 :: b2 :: bs =>
    if b0 = 0x0F#8 ∧ b1 = 0x38#8 ∧ b2 = 0x82#8 then decodeAfterOpcode m csD ps rex bs else .notInvpcid
  | bs => if bs.isPrefixOf opcodeBytes then .incomplete else .notInvpcid

/-- The decoder (`30_encoding.md` rule R100), in mode `m` with this `CS.D`. -/
def decode (m : Mode) (csD : Bool) (bs : List Byte) : DecodeResult :=
  decodeOpcode m csD (takePrefixes bs).1 (takeRex m (takePrefixes bs).2).1 (takeRex m (takePrefixes bs).2).2

/-- The value of `mod` a displacement calls for. -/
def Disp.mod {w : Nat} : Disp w → BitVec 2
  | .none => 0#2
  | .short _ => 1#2
  | .long _ => 2#2

/-- The bytes of a 16-bit addressing displacement. -/
def Disp.encode16 : Disp 16 → List Byte
  | .none => []
  | .short v => [v]
  | .long v => bytes16 v

/-- The bytes of a 32- or 64-bit addressing displacement. -/
def Disp.encode32 : Disp 32 → List Byte
  | .none => []
  | .short v => [v]
  | .long v => bytes32 v

/-- The ModRM byte (`30_encoding.md` rule R82). -/
def modrmByte (mod : BitVec 2) (reg rm : BitVec 3) : Byte := (mod ++ reg ++ rm).setWidth 8

/-- The SIB byte (`30_encoding.md` rule R86). -/
def sibByte (scale : BitVec 2) (index base : BitVec 3) : Byte := (scale ++ index ++ base).setWidth 8

/-- ModRM and what follows it, 16-bit addressing. -/
def Ea16.encode (reg : BitVec 3) : Ea16 → List Byte
  | .based b d => modrmByte d.mod reg b.rm :: d.encode16
  | .absolute v => modrmByte 0#2 reg 6#3 :: bytes16 v

/-- ModRM and what follows it, 32- and 64-bit addressing. -/
def EaLong.encode (reg : BitVec 3) : EaLong → List Byte
  | .based rm d => modrmByte d.mod reg rm :: d.encode32
  | .disp32 v => modrmByte 0#2 reg 5#3 :: bytes32 v
  | .sib scale index base d => modrmByte d.mod reg 4#3 :: sibByte scale index base :: d.encode32
  | .sibNoBase scale index v => modrmByte 0#2 reg 4#3 :: sibByte scale index 5#3 :: bytes32 v

/-- ModRM and what follows it. -/
def MemOperand.encode (reg : BitVec 3) : MemOperand → List Byte
  | .addr16 ea => ea.encode reg
  | .addr32 ea => ea.encode reg
  | .addr64 ea => ea.encode reg

/-- The REX byte where there is one. -/
def encodeRex : Option Rex → List Byte
  | none => []
  | some x => [x.byte]

/-- The byte string of `30_encoding.md` rule R80. -/
def encodeInvpcid (ps : List Prefix) (rex : Option Rex) (reg : BitVec 3) (mem : MemOperand) : List Byte :=
  ps.map Prefix.byte ++ (encodeRex rex ++ (opcodeBytes ++ mem.encode reg))

/-- The bytes of an instruction, lowest address first. -/
def encode : Instr → List Byte
  | .invpcidR32 ps reg mem => encodeInvpcid ps none reg mem
  | .invpcidR64 ps rex reg mem => encodeInvpcid ps rex reg mem

/-- The longest instruction (`30_encoding.md` rule R94). -/
abbrev maxLength : Nat := 15

/-- The `n` low bytes of a number, least significant first. -/
def bytesOfNat : Nat → Nat → List Byte
  | 0, _ => []
  | n + 1, w => BitVec.ofNat 8 w :: bytesOfNat n (w / 256)

/-- The table numbers a row's bits with the mandatory `66` as the MOST significant byte (`30_encoding.md` rule R99). A word
is in that numbering when its two low bytes are a ModRM and the opcode byte `82`. -/
def tableNumbered (nbits w : Nat) : Bool := decide (nbits ≥ 40) && decide (w / 256 % 256 = 0x82)

/-- The bytes, lowest address first, of an instruction given as a word of `nbits` bits, and zeros up to the longest
instruction: by the table's own numbering (rule R99), else with bit 0 the least significant bit of the first byte
(DESIGN CHOICE, log entry 12: the two numberings share no INVPCID word). -/
def tableBytes (nbits w : Nat) : List Byte :=
  (if tableNumbered nbits w then (bytesOfNat (nbits / 8) w).reverse else bytesOfNat (nbits / 8) w)
    ++ List.replicate (maxLength - nbits / 8) 0#8

/-- The instruction a result holds. -/
def DecodeResult.instr? : DecodeResult → Option Instr
  | .instr i _ => some i
  | _ => none

/-- The mode an instruction word is read in: the mode the machine is in, unless only 64-bit mode reads the word (it has a REX
byte). Both rows of the table have the same bits, so a mode must be chosen (rule R99; DESIGN CHOICE, log entry 12). -/
def tableMode (m : Mode) (csD : Bool) (nbits w : Nat) : Mode :=
  match (decode m csD (tableBytes nbits w)).instr?, (decode .sixtyFourBit csD (tableBytes nbits w)).instr? with
  | none, some _ => .sixtyFourBit
  | _, _ => m

/-- The instruction the decoder reads from a word of the opcode table, in the mode of reset (real-address, `CS.D = 0`)
or, where only 64-bit mode reads it, in 64-bit mode. -/
def decodeTableWord (nbits w : Nat) : Option Instr :=
  (decode (tableMode .realAddress false nbits w) false (tableBytes nbits w)).instr?

end Sys2Proof
end

