-- ==== Sys2Proof/Machine/State.lean ====
section
/-! DEFINITION. The state of the logical processor as plain data (`10_state.md`), the ways a step can stop, and reset.
Reset values the spec does not give are log entries 1 to 8 and 18. -/

namespace Sys2Proof.Machine

/-- The sixteen general registers, 64 bits each (`10_state.md` rule R21). -/
structure Gprs where
  rax : Word
  rcx : Word
  rdx : Word
  rbx : Word
  rsp : Word
  rbp : Word
  rsi : Word
  rdi : Word
  r8 : Word
  r9 : Word
  r10 : Word
  r11 : Word
  r12 : Word
  r13 : Word
  r14 : Word
  r15 : Word
  deriving DecidableEq, Repr

/-- The attributes of one segment register (`10_state.md` rule R30). The predicate `limit_ok` is held as the set of offsets
inside the limit, a union of ranges (log entry 5). -/
structure Segment where
  base : Word
  inLimit : List AddrRange
  unusable : Bool
  executeOnly : Bool
  deriving DecidableEq, Repr

/-- Memory: bytes by physical address (`10_state.md` rule R35), in the canonical form of `Memory.wf`. -/
abbrev Memory := List Host.Cell

/-- Every piece of state the spec gives the machine; INVENTORY.md cites the rule of each. -/
structure State where
  /-- General registers (R21). -/
  regs : Gprs
  /-- `rIP`, the address of the instruction's first byte (R23). -/
  rip : Word
  /-- The flags: neither read nor written (R24). -/
  rflags : Word
  /-- The operating mode (R25). -/
  mode : Mode
  /-- `CPL` (R26). -/
  cpl : Fin 4
  /-- `CS.D` (R27). -/
  csD : Bool
  /-- `CR4.PCIDE` (R28). -/
  cr4Pcide : Bool
  /-- Segment registers (R30). -/
  cs : Segment
  ss : Segment
  ds : Segment
  es : Segment
  fs : Segment
  gs : Segment
  /-- Paging is on, where the mode leaves it optional (`20_memory.md` rule R58). -/
  paging : Bool
  /-- The parameter `translate` (`20_memory.md` rule R58). -/
  xlat : Translation
  /-- `TC`, the TLBs and paging-structure caches (R31): a set, held as a list without repeats. -/
  tc : List CacheEntry
  /-- Memory (R35). -/
  mem : Memory
  /-- The physical ranges that are not ordinary memory (`20_memory.md` rule R54). -/
  nonOrdinary : List AddrRange
  /-- The physical ranges that another agent may write while an instruction reads them (`20_memory.md` rule R61; none is the
  premise `SoleAgent` of `70_reset_and_hazards.md` rule R197; log entry 18). -/
  otherWriters : List AddrRange
  /-- The constants of the processor (`00_scope.md` rule R5). -/
  cfg : Config
  /-- The model's own: selects the free values of one execution (`choose`, `40_invpcid.md` rule R122; log entry 8). -/
  draw : Nat
  deriving DecidableEq, Repr

/-- The exceptions (`60_exceptions.md` rule R160). Each is raised by an INVPCID whose condition of rule R166 holds, and is
a terminal outcome (rule R169, decision D5). Safe: a run that a handler would continue has no continuation here. -/
inductive Fault
  /-- `#UD`, no error code: conditions UD1, UD2. Safe. -/
  | ud
  /-- `#GP(0)` (`some 0`), or `#GP` without error code in real-address mode (`none`): conditions GP1 to GP10. Safe. -/
  | gp (errorCode : Option Nat)
  /-- `#SS(0)`: conditions SS1 to SS3. Safe. -/
  | ss (errorCode : Nat)
  /-- `#PF(fault-code)`: condition PF1, the code is the one `translate` gives. Safe. -/
  | pf (faultCode : Nat)
  deriving DecidableEq, Repr

/-- The model gives no meaning (`REFUSE` of `20_memory.md` rule R66, `Refused` and `NotInvpcid` of `30_encoding.md`
rule R100). Every one is safe: nothing is claimed of the processor there. -/
inductive Refusal
  /-- Raised by an arm of `exec` for an instruction without a meaning; no arm does. Safe. -/
  | notModelled (mnemonic : String)
  /-- Raised by `step`: the bytes at `CS:rIP` are not INVPCID (rule R100). Safe. -/
  | notInvpcid
  /-- Raised by `step`: prefixes outside rule R93. Safe. -/
  | prefixes
  /-- Raised by `step`: `ModRM.mod = 11` (rule R84, decision D8). Safe. -/
  | registerOperand
  /-- Raised by `step`: longer than 15 bytes (rule R94). Safe. -/
  | tooLong
  /-- Raised by `step`: the instruction's bytes cannot all be fetched (rule R67, decision D24). Safe. -/
  | notFetchable
  /-- Raised by a meaning given a form that the mode cannot encode (rule R95); `step` never meets it. Safe. -/
  | formNotEncodable
  /-- Raised by the operand read: the 16 offsets pass the end of the offset space (rule R50, decision D27). Safe. -/
  | operandPastOffsetSpace
  /-- Raised by the operand read in real-address mode: outside the segment limit (rule R57, decision D15). Safe. -/
  | operandPastRealModeLimit
  /-- Raised by the operand read: memory that is not ordinary (rule R54). Safe. -/
  | operandNotOrdinaryMemory
  /-- Raised with `CR4.PCIDE = 1` outside 64-bit mode, type 0 or 1 and a non-zero PCID (decision D9). Safe. -/
  | pcideOutside64BitMode
  deriving DecidableEq, Repr

/-- The outcome of a step. -/
abbrev Outcome := Host.Outcome State Fault Refusal

/-- A segment of the reset state: the family's base, limit FFFFH, usable. -/
def Segment.atReset (base : Word) : Segment :=
  { base := base, inLimit := [⟨0, 0xFFFF⟩], unusable := false, executeOnly := false }

/-- General registers at reset: the family's zeros (log entry 2). -/
def Gprs.atReset : Gprs :=
  { rax := 0, rcx := 0, rdx := 0, rbx := 0, rsp := 0, rbp := 0, rsi := 0, rdi := 0,
    r8 := 0, r9 := 0, r10 := 0, r11 := 0, r12 := 0, r13 := 0, r14 := 0, r15 := 0 }

/-- The constants of the processor the reset state is of (log entry 1). -/
def resetConfig : Config :=
  { hasInvpcid := true, laWidth := 48, laWidthDesc := 48, faultOrder := .anyReportable }

/-- The state after reset (`10_state.md` rule R36, `70_reset_and_hazards.md` rule R190): real-address mode, CPL 0, first
fetch at FFFFFFF0H, `CR4.PCIDE = 0`; everything else by log entries 1 to 8 and 18. -/
def State.reset : State :=
  { regs := Gprs.atReset
    rip := 0xFFF0#64
    rflags := 2#64
    mode := .realAddress
    cpl := 0
    csD := false
    cr4Pcide := false
    cs := Segment.atReset 0xFFFF0000#64
    ss := Segment.atReset 0#64
    ds := Segment.atReset 0#64
    es := Segment.atReset 0#64
    fs := Segment.atReset 0#64
    gs := Segment.atReset 0#64
    paging := false
    xlat := { rules := [], otherwise := .identity }
    tc := []
    mem := []
    nonOrdinary := []
    otherWriters := []
    cfg := resetConfig
    draw := 0 }

end Sys2Proof.Machine
end

