-- ==== Sys2Proof/Machine/Flags.lean ====
section
/-! DEFINITION. The flags: INVPCID reads none and writes none (`10_state.md` rule R24, decision D7). -/

namespace Sys2Proof.Machine

/-- The flags after a completed INVPCID (`10_state.md` rule R24): those before it. -/
def flagsAfterInvpcid (flags : Word) : Word := flags

end Sys2Proof.Machine
end

