-- ==== Sys2Proof/Machine/Operands.lean ====
section
/-! DEFINITION. The operands: registers (`10_state.md` rule R21), the type operand (`40_invpcid.md` rules R120, R121), and
the effective address and segment of the memory operand (`30_encoding.md` rules R85 to R90). -/

namespace Sys2Proof.Machine

/-- The register of a number (`10_state.md` rule R21). -/
def regOfNumber (n : BitVec 4) : Reg :=
  match n.toNat with
  | 0 => .rax
  | 1 => .rcx
  | 2 => .rdx
  | 3 => .rbx
  | 4 => .rsp
  | 5 => .rbp
  | 6 => .rsi
  | 7 => .rdi
  | 8 => .r8
  | 9 => .r9
  | 10 => .r10
  | 11 => .r11
  | 12 => .r12
  | 13 => .r13
  | 14 => .r14
  | _ => .r15

/-- The whole register, 64 bits. -/
def readReg (s : State) : Reg → Word
  | .rax => s.regs.rax
  | .rcx => s.regs.rcx
  | .rdx => s.regs.rdx
  | .rbx => s.regs.rbx
  | .rsp => s.regs.rsp
  | .rbp => s.regs.rbp
  | .rsi => s.regs.rsi
  | .rdi => s.regs.rdi
  | .r8 => s.regs.r8
  | .r9 => s.regs.r9
  | .r10 => s.regs.r10
  | .r11 => s.regs.r11
  | .r12 => s.regs.r12
  | .r13 => s.regs.r13
  | .r14 => s.regs.r14
  | .r15 => s.regs.r15

/-- `x64[i]` (`10_state.md` rule R21). -/
def x64 (s : State) (n : BitVec 4) : Word := readReg s (regOfNumber n)

/-- `x32[i] = x64[i][31:0]`. -/
def x32 (s : State) (n : BitVec 4) : BitVec 32 := (x64 s n).extractLsb' 0 32

/-- `x16[i] = x64[i][15:0]`. -/
def x16 (s : State) (n : BitVec 4) : BitVec 16 := (x64 s n).extractLsb' 0 16

/-- A register number from a REX bit and a three-bit field, `bit ++ field` (`30_encoding.md` rules R83, R87). -/
def regNumber (ext : Bool) (field : BitVec 3) : BitVec 4 := (BitVec.ofBool ext ++ field).setWidth 4

/-- `REX.R`, 0 without a REX prefix. -/
def rexR (rex : Option Rex) : Bool := (rex.map Rex.r).getD false

/-- `REX.X`, 0 without a REX prefix. -/
def rexX (rex : Option Rex) : Bool := (rex.map Rex.x).getD false

/-- `REX.B`, 0 without a REX prefix. -/
def rexB (rex : Option Rex) : Bool := (rex.map Rex.b).getD false

/-- The type of the r32 form: the low 32 bits of the register, zero-extended (`40_invpcid.md` rule R120). -/
def typeR32 (s : State) (reg : BitVec 3) : Word := (x32 s (regNumber false reg)).setWidth 64

/-- The type of the r64 form: all 64 bits of the register (`40_invpcid.md` rule R121). -/
def typeR64 (s : State) (rex : Option Rex) (reg : BitVec 3) : Word := x64 s (regNumber (rexR rex) reg)

/-- A displacement as a 16-bit number, sign-extended (`30_encoding.md` rule R88). -/
def disp16Value : Disp 16 → BitVec 16
  | .none => 0
  | .short v => v.signExtend 16
  | .long v => v

/-- A displacement as a 32-bit number, sign-extended (`30_encoding.md` rule R88). -/
def disp32Value : Disp 32 → BitVec 32
  | .none => 0
  | .short v => v.signExtend 32
  | .long v => v

/-- A displacement as a 64-bit number, sign-extended (`30_encoding.md` rules R87, R88). -/
def disp64Value : Disp 32 → Word
  | .none => 0
  | .short v => v.signExtend 64
  | .long v => v.signExtend 64

/-- The sum of a 16-bit base combination (`30_encoding.md` rule R85). -/
def base16Value (s : State) : Base16 → BitVec 16
  | .bxSi => x16 s 3 + x16 s 6
  | .bxDi => x16 s 3 + x16 s 7
  | .bpSi => x16 s 5 + x16 s 6
  | .bpDi => x16 s 5 + x16 s 7
  | .si => x16 s 6
  | .di => x16 s 7
  | .bp => x16 s 5
  | .bx => x16 s 3

/-- The effective address of 16-bit addressing, modulo 2^16 (`30_encoding.md` rule R85). -/
def effAddr16 (s : State) : Ea16 → BitVec 16
  | .based b d => base16Value s b + disp16Value d
  | .absolute d => d

/-- The index term of 32-bit addressing; none when `X ++ index = 0100` (`30_encoding.md` rules R86, R87). -/
def indexTerm32 (s : State) (rex : Option Rex) (scale : BitVec 2) (index : BitVec 3) : BitVec 32 :=
  if regNumber (rexX rex) index = 4#4 then 0 else x32 s (regNumber (rexX rex) index) <<< scale.toNat

/-- The index term of 64-bit addressing; none when `X ++ index = 0100` (`30_encoding.md` rule R87). -/
def indexTerm64 (s : State) (rex : Option Rex) (scale : BitVec 2) (index : BitVec 3) : Word :=
  if regNumber (rexX rex) index = 4#4 then 0 else x64 s (regNumber (rexX rex) index) <<< scale.toNat

/-- The effective address of 32-bit addressing, modulo 2^32 (`30_encoding.md` rule R86). In 64-bit mode
`mod = 00, rm = 101` is relative to the next instruction. -/
def effAddr32 (s : State) (rex : Option Rex) (len : Nat) : EaLong → BitVec 32
  | .based rm d => x32 s (regNumber (rexB rex) rm) + disp32Value d
  | .disp32 d => if s.mode = .sixtyFourBit then (s.rip + BitVec.ofNat 64 len).setWidth 32 + d else d
  | .sib scale index base d =>
    x32 s (regNumber (rexB rex) base) + indexTerm32 s rex scale index + disp32Value d
  | .sibNoBase scale index d => indexTerm32 s rex scale index + d

/-- The effective address of 64-bit addressing, modulo 2^64 (`30_encoding.md` rule R87). -/
def effAddr64 (s : State) (rex : Option Rex) (len : Nat) : EaLong → Word
  | .based rm d => x64 s (regNumber (rexB rex) rm) + disp64Value d
  | .disp32 d => s.rip + BitVec.ofNat 64 len + d.signExtend 64
  | .sib scale index base d =>
    x64 s (regNumber (rexB rex) base) + indexTerm64 s rex scale index + disp64Value d
  | .sibNoBase scale index d => indexTerm64 s rex scale index + d.signExtend 64

/-- The effective address `ea` of the memory operand, zero-extended to 64 bits (`30_encoding.md` rules R85 to R87). -/
def effAddr (s : State) (rex : Option Rex) (len : Nat) : MemOperand → Word
  | .addr16 ea => (effAddr16 s ea).setWidth 64
  | .addr32 ea => (effAddr32 s rex len ea).setWidth 64
  | .addr64 ea => effAddr64 s rex len ea

/-- The default segment of 16-bit addressing (`30_encoding.md` rule R85): SS for the BP forms. -/
def defaultSeg16 : Ea16 → SegReg
  | .based .bpSi _ => .ss
  | .based .bpDi _ => .ss
  | .based .bp _ => .ss
  | _ => .ds

/-- SS for base register number 4 or 5, DS for any other (`30_encoding.md` rules R86, R87). -/
def segOfBase (n : BitVec 4) : SegReg := if n = 4#4 ∨ n = 5#4 then .ss else .ds

/-- The default segment of 32- and 64-bit addressing (`30_encoding.md` rules R86, R87). -/
def defaultSegLong (rex : Option Rex) : EaLong → SegReg
  | .based rm _ => segOfBase (regNumber (rexB rex) rm)
  | .disp32 _ => .ds
  | .sib _ _ base _ => segOfBase (regNumber (rexB rex) base)
  | .sibNoBase _ _ _ => .ds

/-- The default segment of the memory operand. -/
def defaultSeg (rex : Option Rex) : MemOperand → SegReg
  | .addr16 ea => defaultSeg16 ea
  | .addr32 ea => defaultSegLong rex ea
  | .addr64 ea => defaultSegLong rex ea

/-- A segment override takes effect: always outside 64-bit mode, only FS and GS in it (`30_encoding.md` rule R90). -/
def overrideEffective (m : Mode) (r : SegReg) : Bool :=
  decide (m ≠ .sixtyFourBit) || decide (r = .fs) || decide (r = .gs)

/-- The segment of the memory operand (`30_encoding.md` rule R90). -/
def operandSeg (m : Mode) (ps : List Prefix) (rex : Option Rex) (mem : MemOperand) : SegReg :=
  match segOverride ps with
  | some r => if overrideEffective m r then r else defaultSeg rex mem
  | none => defaultSeg rex mem

end Sys2Proof.Machine
end

