-- ==== Sys2Proof/Machine/Ops.lean ====
section
/-! DEFINITION. The shared operations: memory, addresses, `translate`, the operand read `MemRead` (`20_memory.md` rule R66),
the conditions of `60_exceptions.md` rule R166, raising an exception (rules R168, R169), and the invalidation
(`40_invpcid.md` rules R125 to R129). -/

namespace Sys2Proof.Machine

/-! ### Memory -/

/-- What a byte that nothing has written reads as (DESIGN CHOICE, log entry 3). -/
def unlistedByte : Byte := 0#8

/-- The byte at a physical address. -/
def Memory.read : Memory → Nat → Byte
  | [], _ => unlistedByte
  | (b, v) :: m, a => if a = b then v else Memory.read m a

/-- Put a byte in front of a memory whose addresses are all higher, keeping the canonical form. -/
def Memory.cons (a : Nat) (v : Byte) (m : Memory) : Memory := if v = unlistedByte then m else (a, v) :: m

/-- `MemWrite` of one byte (`00_scope.md` rule R7: INVPCID performs none; it places a program or a descriptor). -/
def Memory.write : Memory → Nat → Byte → Memory
  | [], a, v => Memory.cons a v []
  | (b, w) :: m, a, v =>
    if a < b then Memory.cons a v ((b, w) :: m)
    else if a = b then Memory.cons a v m
    else (b, w) :: Memory.write m a v

/-- The canonical form: addresses strictly rising above `lo`, and no entry equal to what an unlisted address reads as. -/
def Memory.wfFrom : Nat → Memory → Bool
  | _, [] => true
  | lo, (a, v) :: m => decide (lo ≤ a) && decide (v ≠ unlistedByte) && Memory.wfFrom (a + 1) m

/-- The canonical form of memory. -/
def Memory.wf (m : Memory) : Bool := Memory.wfFrom 0 m

/-! ### Registers and ranges -/

/-- `x[i] <- v` (`00_scope.md` rule R7: INVPCID writes no general register; it places a start state). -/
def writeReg (s : State) (r : Reg) (v : Word) : State :=
  match r with
  | .rax => { s with regs := { s.regs with rax := v } }
  | .rcx => { s with regs := { s.regs with rcx := v } }
  | .rdx => { s with regs := { s.regs with rdx := v } }
  | .rbx => { s with regs := { s.regs with rbx := v } }
  | .rsp => { s with regs := { s.regs with rsp := v } }
  | .rbp => { s with regs := { s.regs with rbp := v } }
  | .rsi => { s with regs := { s.regs with rsi := v } }
  | .rdi => { s with regs := { s.regs with rdi := v } }
  | .r8 => { s with regs := { s.regs with r8 := v } }
  | .r9 => { s with regs := { s.regs with r9 := v } }
  | .r10 => { s with regs := { s.regs with r10 := v } }
  | .r11 => { s with regs := { s.regs with r11 := v } }
  | .r12 => { s with regs := { s.regs with r12 := v } }
  | .r13 => { s with regs := { s.regs with r13 := v } }
  | .r14 => { s with regs := { s.regs with r14 := v } }
  | .r15 => { s with regs := { s.regs with r15 := v } }

/-- A number lies in a range. -/
def inRange (r : AddrRange) (n : Nat) : Bool := decide (r.lo ≤ n) && decide (n ≤ r.hi)

/-- A number lies in a union of ranges. -/
def inRanges (rs : List AddrRange) (n : Nat) : Bool := rs.any fun r => inRange r n

/-- The attributes of a segment register. -/
def segAttrs (s : State) : SegReg → Segment
  | .cs => s.cs
  | .ss => s.ss
  | .ds => s.ds
  | .es => s.es
  | .fs => s.fs
  | .gs => s.gs

/-- `limit_ok(ea, n)` (`10_state.md` rule R30): the `n` bytes at offsets `ea .. ea+n-1` lie inside the limit. -/
def limitOk (g : Segment) (ea n : Nat) : Bool := (List.range n).all fun i => inRanges g.inLimit (ea + i)

/-! ### Linear and physical addresses -/

/-- The base that forms a linear address: in 64-bit mode those of CS, DS, ES and SS are taken as zero
(`20_memory.md` rule R50). -/
def segBase (s : State) (r : SegReg) : Word :=
  if s.mode = .sixtyFourBit ∧ r ≠ .fs ∧ r ≠ .gs then 0 else (segAttrs s r).base

/-- A linear address is 64 bits wide in 64-bit mode, and taken modulo 2^32 outside it (`20_memory.md` rule R50). -/
def truncateLinear (m : Mode) (a : Word) : Word :=
  if m = .sixtyFourBit then a else (a.setWidth 32).setWidth 64

/-- `la(i)`, the linear address of byte `i` of the operand (`20_memory.md` rule R50). -/
def linearAddr (s : State) (r : SegReg) (ea : Word) (i : Nat) : Word :=
  truncateLinear s.mode (segBase s r + ea + BitVec.ofNat 64 i)

/-- `canonical(a)` for an implemented width (`20_memory.md` rule R59): `sext_64(a[width-1 : 0]) = a`. -/
def canonical (width : Nat) (a : Word) : Bool := decide ((a.setWidth width).signExtend 64 = a)

/-- A rule of the translation map covers this access. -/
def ruleCovers (s : State) (acc : Access) (la : Word) (r : XlatRule) : Bool :=
  inRange r.range la.toNat
    && (r.access.isNone || decide (r.access = some acc))
    && (r.cpl.isNone || decide (r.cpl = some s.cpl))
    && (r.whenTc.isNone || decide (r.whenTc = some s.tc))

/-- What a rule that covers `la` answers. -/
def ruleResult (la : Word) (r : XlatRule) : XlatResult :=
  match r.result with
  | .phys p => .phys (p + (la.toNat - r.range.lo))
  | .pageFault c => .pageFault c

/-- What the map answers where no rule covers the access. -/
def defaultResult (la : Word) : XlatDefault → XlatResult
  | .identity => .phys la.toNat
  | .pageFault c => .pageFault c

/-- The map's answer: the first rule that covers the access. -/
def mapLookup (s : State) (acc : Access) (la : Word) : List XlatRule → XlatResult
  | [] => defaultResult la s.xlat.otherwise
  | r :: rs => if ruleCovers s acc la r then ruleResult la r else mapLookup s acc la rs

/-- Paging is off in real-address mode and optional in protected mode (`20_memory.md` rule R58); virtual-8086 mode is
taken as protected mode (it reaches `translate` for the fetch only); on in the other two. -/
def pagingOff (s : State) : Bool :=
  match s.mode with
  | .realAddress => true
  | .protectedMode => !s.paging
  | .virtual8086 => !s.paging
  | .compatibility => false
  | .sixtyFourBit => false

/-- `translate` (`20_memory.md` rule R58): the identity when paging is off. -/
def translateAddr (s : State) (acc : Access) (la : Word) : XlatResult :=
  if pagingOff s then .phys la.toNat else mapLookup s acc la s.xlat.rules

/-- The physical address of a result that is not a page fault. -/
def xlatAddress : XlatResult → Nat
  | .phys p => p
  | .pageFault _ => 0

/-! ### The conditions of `60_exceptions.md` rule R166 -/

/-- The named conditions (`60_exceptions.md` rule R166). -/
inductive Condition
  | ud1
  | ud2
  | gp1
  | gp2
  | gp3
  | gp4
  | gp5
  | gp6
  | gp7
  | gp8
  | gp9
  | gp10
  | ss1
  | ss2
  | ss3
  | pf1 (code : Nat)
  deriving DecidableEq, Repr

/-- `#GP(0)`; `#GP` without error code in real-address mode (`60_exceptions.md` rules R160, R162). -/
def gpFault (m : Mode) : Fault := if m = .realAddress then .gp none else .gp (some 0)

/-- `exception(c)`: the exception a condition raises in a mode (`60_exceptions.md` rule R166). -/
def Condition.fault (m : Mode) : Condition → Fault
  | .ud1 => .ud
  | .ud2 => .ud
  | .gp1 => gpFault m
  | .gp2 => gpFault m
  | .gp3 => gpFault m
  | .gp4 => gpFault m
  | .gp5 => gpFault m
  | .gp6 => gpFault m
  | .gp7 => gpFault m
  | .gp8 => gpFault m
  | .gp9 => gpFault m
  | .gp10 => gpFault m
  | .ss1 => .ss 0
  | .ss2 => .ss 0
  | .ss3 => .ss 0
  | .pf1 code => .pf code

/-- The error code an exception reports, where it has one (`60_exceptions.md` rule R160). -/
def Fault.errorCode : Fault → Option Nat
  | .ud => none
  | .gp code => code
  | .ss code => some code
  | .pf code => some code

/-- The vector number (`60_exceptions.md` rule R160, K8: general knowledge of the spec; no rule uses it). -/
def Fault.vector : Fault → Nat
  | .ud => 6
  | .ss _ => 12
  | .gp _ => 13
  | .pf _ => 14

/-- The condition as a list: itself when it holds. -/
def holds (b : Bool) (c : Condition) : List Condition := if b then [c] else []

/-- The conditions on recognition: UD2, UD1 (`40_invpcid.md` rule R122 step A). -/
def recognitionConditions (lock : Bool) (s : State) : List Condition :=
  holds lock .ud2 ++ holds (!s.cfg.hasInvpcid) .ud1

/-- Step A of `40_invpcid.md` rule R122: recognition, then the privilege level in the modes that test it
(`60_exceptions.md` rule R166). -/
def entryConditions (lock : Bool) (s : State) : List Condition :=
  recognitionConditions lock s
    ++ holds (decide (s.mode = .virtual8086)) .gp1
    ++ holds (decide (s.mode ≠ .realAddress) && decide (s.mode ≠ .virtual8086) && decide (s.cpl ≠ 0)) .gp2

/-- The segment conditions of protected and compatibility mode (`20_memory.md` rules R55, R66), in the order of R66. -/
def segmentConditions (s : State) (r : SegReg) (ea : Word) : List Condition :=
  if r = .ss then
    holds s.ss.unusable .ss2 ++ holds (!limitOk s.ss ea.toNat 16) .ss1
  else
    holds (decide (r ≠ .cs) && (segAttrs s r).unusable) .gp4
      ++ holds (decide (r = .cs) && s.cs.executeOnly) .gp5
      ++ holds (!limitOk (segAttrs s r) ea.toNat 16) .gp3

/-- The canonical condition of 64-bit mode, on every byte of the operand (`20_memory.md` rule R56). -/
def canonicalConditions (s : State) (r : SegReg) (ea : Word) : List Condition :=
  holds (!(List.range 16).all fun i => canonical s.cfg.laWidth (linearAddr s r ea i))
    (if r = .ss then .ss3 else .gp6)

/-- The conditions that stand before paging, by mode (`20_memory.md` rule R66); real-address mode has none, and
virtual-8086 mode never reads the operand. -/
def addressConditions (s : State) (r : SegReg) (ea : Word) : List Condition :=
  match s.mode with
  | .protectedMode => segmentConditions s r ea
  | .compatibility => segmentConditions s r ea
  | .sixtyFourBit => canonicalConditions s r ea
  | .realAddress => []
  | .virtual8086 => []

/-- The page fault of byte `i` of the operand, where it has one (`20_memory.md` rule R58). -/
def byteFault (s : State) (r : SegReg) (ea : Word) (i : Nat) : List Condition :=
  match translateAddr s .read (linearAddr s r ea i) with
  | .phys _ => []
  | .pageFault code => [.pf1 code]

/-- The page faults of the sixteen bytes, lowest-addressed first (`20_memory.md` rules R58, R66). -/
def pageConditions (s : State) (r : SegReg) (ea : Word) : List Condition :=
  (List.range 16).flatMap (byteFault s r ea)

/-! ### The operand read -/

/-- The physical address of byte `i` of the operand. -/
def operandPhys (s : State) (r : SegReg) (ea : Word) (i : Nat) : Nat :=
  xlatAddress (translateAddr s .read (linearAddr s r ea i))

/-- A read of one operand byte, the `i`th, at a physical address (`20_memory.md` rule R61, decision D12): the byte memory
holds; where another agent may write it meanwhile, an oracle answer, a free value (log entry 18). -/
def readDataByte (s : State) (i address : Nat) : Byte :=
  if inRanges s.otherWriters address then Config.oracleByte s.draw i address else s.mem.read address

/-- `b(i)`, byte `i` of the operand (`20_memory.md` rules R52, R66). -/
def operandByte (s : State) (r : SegReg) (ea : Word) (i : Nat) : Byte := readDataByte s i (operandPhys s r ea i)

/-- The number that bytes stand for, least significant first (`20_memory.md` rule R52). -/
def leNat : List Byte → Nat
  | [] => 0
  | b :: bs => b.toNat + 256 * leNat bs

/-- `INVPCID_DESC = b(15) ++ ... ++ b(0)` (`20_memory.md` rule R52). -/
def descriptorAt (s : State) (r : SegReg) (ea : Word) : Descriptor :=
  BitVec.ofNat 128 (leNat ((List.range 16).map (operandByte s r ea)))

/-- What the operand read comes to: a value, the conditions that end it (one at least), or a refusal. -/
inductive ReadResult
  | value (desc : Descriptor)
  | raised (first : Condition) (more : List Condition)
  | refused (why : Refusal)
  deriving DecidableEq, Repr

/-- Real-address mode with an operand outside the segment limit (`20_memory.md` rule R57). -/
def pastRealModeLimit (s : State) (r : SegReg) (ea : Word) : Bool :=
  decide (s.mode = .realAddress) && !limitOk (segAttrs s r) ea.toNat 16

/-- Some byte of the operand is not ordinary memory (`20_memory.md` rule R54). -/
def notOrdinary (s : State) (r : SegReg) (ea : Word) : Bool :=
  (List.range 16).any fun i => inRanges s.nonOrdinary (operandPhys s r ea i)

/-- `MemRead(seg, ea, 16)` (`20_memory.md` rule R66). DESIGN CHOICE (log entry 6): where one byte page-faults and another is not
ordinary memory, for which the spec gives no order, the page fault is raised; the refusal of rule R54 is reached only when
all sixteen bytes translate. -/
def memRead (s : State) (size : AddrSize) (r : SegReg) (ea : Word) : ReadResult :=
  if 2 ^ size.bits ≤ ea.toNat + 15 then .refused .operandPastOffsetSpace
  else match addressConditions s r ea with
    | c :: cs => .raised c cs
    | [] =>
      if pastRealModeLimit s r ea then .refused .operandPastRealModeLimit
      else match pageConditions s r ea with
        | c :: cs => .raised c cs
        | [] => if notOrdinary s r ea then .refused .operandNotOrdinaryMemory else .value (descriptorAt s r ea)

/-! ### The descriptor and its checks -/

/-- The PCID field, bits 11:0 (`40_invpcid.md` rule R123). -/
def descPcid (d : Descriptor) : Pcid := d.extractLsb' 0 12

/-- The reserved field, bits 63:12 (`40_invpcid.md` rule R123). -/
def descReserved (d : Descriptor) : BitVec 52 := d.extractLsb' 12 52

/-- The linear-address field, bits 127:64 (`40_invpcid.md` rule R123). -/
def descLinear (d : Descriptor) : Word := d.extractLsb' 64 64

/-- GP7: `INVPCID_TYPE > 3`, unsigned (`40_invpcid.md` rule R124). It needs the register only. -/
def typeConditions (type : Word) : List Condition := holds (decide (3#64 < type)) .gp7

/-- The type is 0 or 1 and the descriptor's PCID is not 000H. -/
def namesPcid (type : Word) (d : Descriptor) : Bool :=
  (decide (type = 0#64) || decide (type = 1#64)) && decide (descPcid d ≠ 0#12)

/-- GP8, GP9, GP10: the checks of the descriptor's value (`40_invpcid.md` rule R124). -/
def valueConditions (s : State) (type : Word) (d : Descriptor) : List Condition :=
  holds (decide (descReserved d ≠ 0#52)) .gp8
    ++ holds (!s.cr4Pcide && namesPcid type d) .gp9
    ++ holds (decide (type = 0#64) && !canonical s.cfg.laWidthDesc (descLinear d)) .gp10

/-- The state decision D9 leaves without a meaning: `CR4.PCIDE = 1` outside 64-bit mode, where the source's two wordings
of GP9 differ (`90_conflicts.md` C2). -/
def disputedPcid (s : State) (type : Word) (d : Descriptor) : Bool :=
  s.cr4Pcide && decide (s.mode ≠ .sixtyFourBit) && namesPcid type d

/-! ### Raising an exception -/

/-- The exception reported among those whose conditions hold (`60_exceptions.md` rule R168), given in the default order:
the first, or any one, as `FAULT_ORDER` says. Where all are the same exception the choice is immaterial (R168 (b)). -/
def chooseFault (s : State) (first : Fault) (all : List Fault) : Fault :=
  match s.cfg.faultOrder with
  | .defaultOrder => first
  | .anyReportable =>
    if all.all (fun f => decide (f = first)) then first
    else (all[Config.faultPick s.draw % all.length]?).getD first

/-- TAKING AN EXCEPTION: `raise` (`60_exceptions.md` rule R169) is a terminal outcome with the class and error code of the
exception reported; no state is changed. `first :: more` are the conditions that hold. -/
def raise (s : State) (first : Condition) (more : List Condition) : Outcome :=
  .fault (chooseFault s (first.fault s.mode) ((first :: more).map (Condition.fault s.mode)))

/-- Raise if a condition holds, else go on. -/
def raiseIfAny (s : State) (cs : List Condition) (otherwise : Outcome) : Outcome :=
  match cs with
  | [] => otherwise
  | c :: more => raise s c more

/-! ### The effect -/

/-- A mapping is for linear address `a` (`10_state.md` rule R31). -/
def entryIsFor (e : CacheEntry) (a : Word) : Bool := inRanges e.region a.toNat

/-- The must-set of each type as a predicate on entries (`40_invpcid.md` rules R125 to R128); types above 3 never get here. -/
def mustInvalidate (type : Word) (pcid : Pcid) (linear : Word) (e : CacheEntry) : Bool :=
  if type = 0#64 then !e.isGlobal && decide (e.pcid = pcid) && entryIsFor e linear
  else if type = 1#64 then !e.isGlobal && decide (e.pcid = pcid)
  else if type = 2#64 then true
  else !e.isGlobal

/-- `TC'`: the entries outside the must-set that the free choice keeps (`40_invpcid.md` rule R129). -/
def invalidate (draw : Nat) (type : Word) (d : Descriptor) (tc : List CacheEntry) : List CacheEntry :=
  tc.filter fun e => !mustInvalidate type (descPcid d) (descLinear d) e && Config.survives draw e

/-- The significant bits of `rIP` (`10_state.md` rule R23). -/
def ipWidth (s : State) : Nat :=
  if s.mode = .sixtyFourBit then 64 else if code16 s.mode s.csD then 16 else 32

/-- The significant part of `rIP`. -/
def ipValue (s : State) : Nat := s.rip.toNat % 2 ^ ipWidth s

/-- `rIP + len` (`10_state.md` rule R23); a free value where it passes the top of the instruction-pointer space
(log entry 9). -/
def nextRip (s : State) (len : Nat) : Word :=
  if ipValue s + len < 2 ^ ipWidth s then s.rip + BitVec.ofNat 64 len else Config.ripPastTop s.draw

/-- Step D of `40_invpcid.md` rule R122: the caches and `rIP` change, and nothing else the spec names (rule R132). -/
def complete (s : State) (type : Word) (d : Descriptor) (len : Nat) : State :=
  { s with
    tc := invalidate s.draw type d s.tc
    rip := nextRip s len
    rflags := flagsAfterInvpcid s.rflags
    draw := s.draw + 1 }

/-- Steps C and D of `40_invpcid.md` rule R122, with the descriptor read. The refusal of decision D9 stands last: it is
reached when no other condition holds; where one does, `#GP` is also among the reported ones. -/
def afterRead (s : State) (entry : List Condition) (type : Word) (d : Descriptor) (len : Nat) : Outcome :=
  match entry ++ typeConditions type ++ valueConditions s type d with
  | [] => if disputedPcid s type d then .refused .pcideOutside64BitMode else .next (complete s type d len)
  | c :: more => raise s c (more ++ holds (disputedPcid s type d) .gp9)

/-- One execution of INVPCID outside virtual-8086 mode, steps A to D of `40_invpcid.md` rule R122. A refusal of the operand
read is reached only when no condition of step A holds (`60_exceptions.md` rule R168 (e)); the descriptor's value is
checked only when it was read (R168 (a)). -/
def runOnOperand (s : State) (entry : List Condition) (type : Word) (r : ReadResult) (len : Nat) : Outcome :=
  match r with
  | .value d => afterRead s entry type d len
  | .raised c more => raiseIfAny s (entry ++ (c :: more) ++ typeConditions type) (raise s c more)
  | .refused why =>
    match entry with
    | [] => .refused why
    | c :: more => raise s c (more ++ typeConditions type)

/-- One execution of INVPCID (`40_invpcid.md` rule R122). In virtual-8086 mode no operand is read
(`60_exceptions.md` rule R163): `#GP(0)`, or `#UD` where UD1 or UD2 holds (rule R168). -/
def invpcid (s : State) (lock : Bool) (type : Word) (size : AddrSize) (r : SegReg) (ea : Word) (len : Nat) : Outcome :=
  if s.mode = .virtual8086 then raiseIfAny s (entryConditions lock s) (raise s .gp1 [])
  else runOnOperand s (entryConditions lock s) type (memRead s size r ea) len

/-! ### The instruction fetch -/

/-- The linear address of byte `k` of the instruction (`20_memory.md` rule R67), where the offset stays in the
instruction-pointer space, inside the limit of CS outside 64-bit mode, and canonical in it. -/
def fetchLinear (s : State) (k : Nat) : Option Word :=
  let la := truncateLinear s.mode (segBase s .cs + BitVec.ofNat 64 (ipValue s + k))
  if 2 ^ ipWidth s ≤ ipValue s + k then none
  else if s.mode = .sixtyFourBit then (if canonical s.cfg.laWidth la then some la else none)
  else if limitOk s.cs (ipValue s + k) 1 then some la
  else none

/-- The physical address of byte `k` of the instruction, where it can be fetched (`20_memory.md` rule R67). -/
def fetchPhys (s : State) (k : Nat) : Option Nat :=
  match fetchLinear s k with
  | none => none
  | some la =>
    match translateAddr s .fetch la with
    | .phys p => if inRanges s.nonOrdinary p then none else some p
    | .pageFault _ => none

/-- At most `n` bytes from byte `k` of the instruction on, up to the first that cannot be fetched. -/
def fetchFrom (s : State) : Nat → Nat → List Byte
  | 0, _ => []
  | n + 1, k =>
    match fetchPhys s k with
    | none => []
    | some p => s.mem.read p :: fetchFrom s n (k + 1)

/-- The bytes at `CS:rIP`, at most the longest instruction. -/
def fetchBytes (s : State) : List Byte := fetchFrom s maxLength 0

/-- Store bytes where the fetch reads byte `k` and the following ones. -/
def placeFrom (s : State) : Nat → List Byte → Memory → Memory
  | _, [], m => m
  | k, b :: bs, m =>
    match fetchPhys s k with
    | none => placeFrom s (k + 1) bs m
    | some p => placeFrom s (k + 1) bs (m.write p b)

end Sys2Proof.Machine
end

