-- ==== Sys2Proof/Machine/Invpcid.lean ====
section
/-! DEFINITION. The meanings of the two forms of INVPCID (`40_invpcid.md` rules R120, R121, R122). -/

namespace Sys2Proof.Machine

/-- `INVPCID r32, m128` (`40_invpcid.md` rule R120): not encodable in 64-bit mode; elsewhere rule R122 with the low 32 bits
of the register, zero-extended, as the type. -/
def execInvpcidR32 (ps : List Prefix) (reg : BitVec 3) (mem : MemOperand) (s : State) : Outcome :=
  let len := invpcidLength ps none mem
  if s.mode = .sixtyFourBit then .refused .formNotEncodable
  else invpcid s (lockPresent ps) (typeR32 s reg) mem.size (operandSeg s.mode ps none mem) (effAddr s none len mem) len

/-- `INVPCID r64, m128` (`40_invpcid.md` rule R121): encodable in 64-bit mode only; there rule R122 with all 64 bits of the
register `REX.R ++ ModRM.reg` as the type. -/
def execInvpcidR64 (ps : List Prefix) (rex : Option Rex) (reg : BitVec 3) (mem : MemOperand) (s : State) : Outcome :=
  let len := invpcidLength ps rex mem
  if s.mode ≠ .sixtyFourBit then .refused .formNotEncodable
  else invpcid s (lockPresent ps) (typeR64 s rex reg) mem.size (operandSeg s.mode ps rex mem) (effAddr s rex len mem) len

end Sys2Proof.Machine
end

