-- ==== Sys2Proof/Machine/Dispatch.lean ====
section
/-! DEFINITION. One arm per constructor of `Instr`. -/

namespace Sys2Proof.Machine

def exec (i : Instr) (s : State) : Host.Outcome State Fault Refusal :=
  match i with
  | .invpcidR32 ps reg mem => Sys2Proof.Machine.execInvpcidR32 ps reg mem s
  | .invpcidR64 ps rex reg mem => Sys2Proof.Machine.execInvpcidR64 ps rex reg mem s

end Sys2Proof.Machine
end

