-- ==== Sys2Proof/Machine/Step.lean ====
section
/-! DEFINITION. One step: fetch at `CS:rIP`, decode, execute (`00_scope.md` rule R12, `10_state.md` rule R20). -/

namespace Sys2Proof.Machine

/-- The refusal for a string the decoder gives no meaning. -/
def refusalOf : DecodeRefusal → Refusal
  | .prefixes => .prefixes
  | .registerOperand => .registerOperand
  | .tooLong => .tooLong

/-- The fetched bytes end before the instruction does: it is longer than the longest, or cannot all be fetched. -/
def incompleteRefusal (fetched : Nat) : Refusal := if fetched = maxLength then .tooLong else .notFetchable

/-- One step of the logical processor. -/
def step (s : State) : Host.Outcome State Fault Refusal :=
  match decode s.mode s.csD (fetchBytes s) with
  | .instr i _ => exec i s
  | .refused why => .refused (refusalOf why)
  | .notInvpcid => .refused .notInvpcid
  | .incomplete => .refused (incompleteRefusal (fetchBytes s).length)

/-- `s` in the mode the word is read in (log entry 12). -/
def State.inTableMode (s : State) (nbits w : Nat) : State :=
  { s with mode := tableMode s.mode s.csD nbits w }

/-- `s` with an instruction, given as a word of `nbits` bits, stored where `step` fetches its next instruction. The mode is
changed only for a word that 64-bit mode alone reads (log entries 12 and 13). -/
def State.withFetchWord (s : State) (nbits w : Nat) : State :=
  let t := s.inTableMode nbits w
  { t with mem := placeFrom t 0 (tableBytes nbits w) t.mem }

end Sys2Proof.Machine
end

