-- ==== Sys2Proof/Safety.lean ====
section
/-! DEFINITION. The terms of the claims: the launch premises of `70_reset_and_hazards.md` rule R197, the invariant of a run,
and the end of a run (rule R195). -/

namespace Sys2Proof.Machine

/-- `PcideOnlyIn64` (`10_state.md` rule R28 (a)): "CR4.PCIDE must be 0 outside 64-bit mode". -/
abbrev PcideOnlyIn64 (s : State) : Prop := s.cr4Pcide = true → s.mode = .sixtyFourBit

/-- `NoPcidWhenDisabled` (`10_state.md` rule R32): with `CR4.PCIDE = 0` every cached entry has PCID 000H. -/
abbrev NoPcidWhenDisabled (s : State) : Prop := s.cr4Pcide = false → ∀ e ∈ s.tc, e.pcid = 0#12

/-- `Fetchable` (`20_memory.md` rule R67): the bytes at `CS:rIP` can be fetched and decode to `i`. -/
abbrev FetchesInstr (s : State) (i : Instr) : Prop := (decode s.mode s.csD (fetchBytes s)).instr? = some i

/-- The invariant of the machine: the two launch premises, the canonical form of memory, and a set of cached entries
without repeats. -/
structure StateInv (s : State) : Prop where
  pcideOnlyIn64 : PcideOnlyIn64 s
  noPcidWhenDisabled : NoPcidWhenDisabled s
  memoryCanonical : s.mem.wf = true
  cacheIsSet : s.tc.Nodup

/-- The decoded parts of an instruction, as the tuple of `30_encoding.md` rule R100 in the state it runs in. -/
structure Decoded where
  lock : Bool
  type : Word
  size : AddrSize
  seg : SegReg
  ea : Word
  len : Nat
  deriving DecidableEq, Repr

/-- The parts of an instruction in a state (`30_encoding.md` rule R100, `40_invpcid.md` rules R120, R121). -/
def decodedIn (s : State) : Instr → Decoded
  | .invpcidR32 ps reg mem =>
    { lock := lockPresent ps, type := typeR32 s reg, size := mem.size, seg := operandSeg s.mode ps none mem,
      ea := effAddr s none (invpcidLength ps none mem) mem, len := invpcidLength ps none mem }
  | .invpcidR64 ps rex reg mem =>
    { lock := lockPresent ps, type := typeR64 s rex reg, size := mem.size, seg := operandSeg s.mode ps rex mem,
      ea := effAddr s rex (invpcidLength ps rex mem) mem, len := invpcidLength ps rex mem }

/-- The operand read of an instruction in a state. -/
def operandRead (i : Instr) (s : State) : ReadResult :=
  memRead s (decodedIn s i).size (decodedIn s i).seg (decodedIn s i).ea

/-- The conditions an operand read ended with. -/
def raisedBy : ReadResult → List Condition
  | .raised c cs => c :: cs
  | .value _ => []
  | .refused _ => []

/-- The conditions on the value that was read, where it was read (`60_exceptions.md` rule R168 (a)). -/
def valueConditionsOf (s : State) (type : Word) : ReadResult → List Condition
  | .value d => valueConditions s type d
  | .raised _ _ => []
  | .refused _ => []

/-- The conditions of `60_exceptions.md` rule R166 that hold for one execution, in the default order of rule R168 (d):
step A, the operand read, GP7, then GP8 to GP10. In virtual-8086 mode step A is all there is. -/
def conditionsOf (i : Instr) (s : State) : List Condition :=
  entryConditions (decodedIn s i).lock s
    ++ (if s.mode = .virtual8086 then [] else
        raisedBy (operandRead i s) ++ typeConditions (decodedIn s i).type
          ++ valueConditionsOf s (decodedIn s i).type (operandRead i s))

/-- What an execution needs before its operand is read (`70_reset_and_hazards.md` rule R191): the form of the mode, the
feature, no LOCK prefix, not virtual-8086 mode, and privilege level 0 where the mode tests it. -/
structure Admitted (i : Instr) (s : State) : Prop where
  formOfMode : i.validIn s.mode = true
  hasFeature : s.cfg.hasInvpcid = true
  noLock : lockPresent i.prefixes = false
  notVirtual8086 : s.mode ≠ .virtual8086
  privileged : s.mode ≠ .realAddress → s.cpl = 0

/-- An admitted execution whose operand read gives the descriptor `d`. -/
structure ReadsDescriptor (i : Instr) (s : State) (d : Descriptor) : Prop extends Admitted i s where
  readsValue : operandRead i s = .value d

/-- `SoleAgent` (`70_reset_and_hazards.md` rule R197, optional): no other agent writes the bytes of the operand during the
instruction. A claim that takes it has it as a hypothesis. -/
abbrev SoleAgent (i : Instr) (s : State) : Prop :=
  ∀ k < 16, ∀ p, translateAddr s .read (linearAddr s (decodedIn s i).seg (decodedIn s i).ea k) = .phys p →
    inRanges s.otherWriters p = false

/-- A displacement as the two's-complement signed number it is (`30_encoding.md` rule R88); 0 where there is none. -/
def signedDisp {w : Nat} : Disp w → Int
  | .none => 0
  | .short v => v.toInt
  | .long v => v.toInt

/-- The PCID a type 0 or 1 may name (`40_invpcid.md` rule R130): 000H, or any with `CR4.PCIDE = 1`, which the source
allows in 64-bit mode only. -/
abbrev PcidAllowed (s : State) (d : Descriptor) : Prop :=
  descPcid d = 0#12 ∨ (s.cr4Pcide = true ∧ s.mode = .sixtyFourBit)

/-- The run of a program has ended (`70_reset_and_hazards.md` rule R195): `rIP` is just past its last instruction. -/
abbrev RunCompleted (s : State) (endAddress : Word) : Prop := s.rip = endAddress

end Sys2Proof.Machine
end

