-- ==== Sys2Proof/Certificates/Slice0/Obligations.lean ====
section
/-! DEFINITION. The statements for the provers, from the numbered rules of `spec/`. -/

open Sys2Proof Sys2Proof.Machine

/-! ### Encoding -/

/-- Every well-formed instruction decodes from its encoding, whatever bytes follow (`30_encoding.md` rules R80 to R95,
R100). -/
def Obligations.DecodeOfEncodeIsTheInstruction : Prop :=
  ∀ (m : Mode) (csD : Bool) (i : Instr) (rest : List Byte),
    i.wellFormed m csD = true → decode m csD (encode i ++ rest) = .instr i rest

/-- What decodes is well-formed, and the string it was read from is its encoding: every byte has one meaning
(`30_encoding.md` rules R80 to R95, R100). -/
def Obligations.DecodedStringIsTheEncoding : Prop :=
  ∀ (m : Mode) (csD : Bool) (bs : List Byte) (i : Instr) (rest : List Byte),
    decode m csD bs = .instr i rest → i.wellFormed m csD = true ∧ bs = encode i ++ rest

/-- A decoded instruction takes `len` bytes, 5 to 15 (`30_encoding.md` rule R94). -/
def Obligations.DecodedLengthIsFiveToFifteen : Prop :=
  ∀ (m : Mode) (csD : Bool) (bs : List Byte) (i : Instr) (rest : List Byte),
    decode m csD bs = .instr i rest → bs.length = i.length + rest.length ∧ 5 ≤ i.length ∧ i.length ≤ 15

/-- The mode alone selects the form: in 64-bit mode the r64 form with a register operand of 64 bits, elsewhere the r32 form
with one of 32 bits, whatever `CS.D` (`30_encoding.md` rule R95). -/
def Obligations.ModeAloneSelectsTheForm : Prop :=
  ∀ (m : Mode) (csD : Bool) (bs : List Byte) (i : Instr) (rest : List Byte),
    decode m csD bs = .instr i rest →
      (m = .sixtyFourBit → ∃ ps rex reg mem, i = .invpcidR64 ps rex reg mem ∧
        ∀ s, (decodedIn s i).type = readReg s (regOfNumber (regNumber (rexR rex) reg))) ∧
      (m ≠ .sixtyFourBit → ∃ ps reg mem, i = .invpcidR32 ps reg mem ∧
        ∀ s, (decodedIn s i).type.toNat = (readReg s (regOfNumber (regNumber false reg))).toNat % 2 ^ 32) ∧
      i.validIn m = true

/-- With or without a REX byte: without `66` the string is not INVPCID; with a prefix set outside rule R93, or a register in
the r/m position, it is refused. Outside 64-bit mode a byte `40`..`4F` after the prefixes is not part of an INVPCID
(`30_encoding.md` rules R81, R84, R92, R93, R100; decisions D8, D17 of the spec). -/
def Obligations.BadPrefixesAndRegisterOperandRefused : Prop :=
  ∀ (m : Mode) (csD : Bool) (ps : List Prefix) (rex : Option Rex) (modrm : Byte) (bs : List Byte),
    (m ≠ .sixtyFourBit →
      ∀ x : Rex, decode m csD (ps.map Prefix.byte ++ x.byte :: bs) = .notInvpcid) ∧
    (m = .sixtyFourBit ∨ rex = none →
      (ps.count .mandatory66 = 0 →
        decode m csD (ps.map Prefix.byte ++ (encodeRex rex ++ (opcodeBytes ++ modrm :: bs))) = .notInvpcid) ∧
      (ps.count .mandatory66 > 1 ∨
          (ps.count .mandatory66 = 1 ∧ (ps.count .addressSize67 > 1 ∨ ps.countP Prefix.isSeg > 1)) →
        decode m csD (ps.map Prefix.byte ++ (encodeRex rex ++ (opcodeBytes ++ modrm :: bs))) = .refused .prefixes) ∧
      (ps.count .mandatory66 = 1 → ps.count .addressSize67 ≤ 1 → ps.countP Prefix.isSeg ≤ 1 →
          modrm.extractLsb' 6 2 = 3#2 →
        decode m csD (ps.map Prefix.byte ++ (encodeRex rex ++ (opcodeBytes ++ modrm :: bs)))
          = .refused .registerOperand))

/-- Words written out from the encoding tables decode to the instructions they stand for (`30_encoding.md` rule R101). -/
def Obligations.WrittenOutWordsDecode : Prop :=
  decode .sixtyFourBit false [0x66#8, 0x0F#8, 0x38#8, 0x82#8, 0x01#8]
      = .instr (.invpcidR64 [.mandatory66] none 0#3 (.addr64 (.based 1#3 .none))) [] ∧
  decode .sixtyFourBit false [0x66#8, 0x45#8, 0x0F#8, 0x38#8, 0x82#8, 0x01#8]
      = .instr (.invpcidR64 [.mandatory66] (some ⟨false, true, false, true⟩) 0#3 (.addr64 (.based 1#3 .none))) [] ∧
  decode .sixtyFourBit false [0x66#8, 0x0F#8, 0x38#8, 0x82#8, 0x0D#8, 0x00#8, 0x01#8, 0x00#8, 0x00#8]
      = .instr (.invpcidR64 [.mandatory66] none 1#3 (.addr64 (.disp32 0x100#32))) [] ∧
  decode .protectedMode true [0x66#8, 0x0F#8, 0x38#8, 0x82#8, 0x5E#8, 0x08#8]
      = .instr (.invpcidR32 [.mandatory66] 3#3 (.addr32 (.based 6#3 (.short 8#8)))) [] ∧
  decode .realAddress false [0x66#8, 0x0F#8, 0x38#8, 0x82#8, 0x07#8]
      = .instr (.invpcidR32 [.mandatory66] 0#3 (.addr16 (.based .bx .none))) [] ∧
  decode .sixtyFourBit false [0x66#8, 0x0F#8, 0x38#8, 0x82#8, 0xC1#8] = .refused .registerOperand

/-! ### Step -/

/-- A step runs the instruction that the bytes at `CS:rIP` decode to; nothing is added around `exec`. -/
def Obligations.StepRunsTheDecodedInstruction : Prop :=
  ∀ (s : State) (i : Instr) (rest : List Byte),
    decode s.mode s.csD (fetchBytes s) = .instr i rest → step s = exec i s

/-- Where the bytes of a well-formed instruction stand, fetchable, at `CS:rIP`, a step executes it
(`20_memory.md` rule R67). Only its own `len` bytes need be fetchable. -/
def Obligations.StepRunsAnInstructionStoredAtRip : Prop :=
  ∀ (s : State) (i : Instr), i.wellFormed s.mode s.csD = true →
    (∀ k < i.length, ∃ p, fetchPhys s k = some p ∧ (encode i)[k]? = some (s.mem.read p)) →
    step s = exec i s

/-- The outcome of a string without an instruction is a refusal by name (`30_encoding.md` rules R93, R100). -/
def Obligations.StepRefusesWhatDoesNotDecode : Prop :=
  ∀ s : State,
    (decode s.mode s.csD (fetchBytes s) = .notInvpcid → step s = .refused .notInvpcid) ∧
    (decode s.mode s.csD (fetchBytes s) = .refused .prefixes → step s = .refused .prefixes) ∧
    (decode s.mode s.csD (fetchBytes s) = .refused .registerOperand → step s = .refused .registerOperand) ∧
    (decode s.mode s.csD (fetchBytes s) = .incomplete → (fetchBytes s).length = 15 → step s = .refused .tooLong) ∧
    (decode s.mode s.csD (fetchBytes s) = .incomplete → (fetchBytes s).length < 15 → step s = .refused .notFetchable)

/-! ### Completion and effect -/

/-- The r32 form completes on every valid operand, with the next state the rules give (`40_invpcid.md` rules R120, R122).
Where `rIP + len` passes the top, `nextRip` is the model's free value (log entry 9); which entries outside the must-set
survive is free (log entry 8). -/
def Obligations.ValidR32InvpcidCompletes : Prop :=
  ∀ (ps : List Prefix) (reg : BitVec 3) (mem : MemOperand) (s : State) (d : Descriptor),
    ReadsDescriptor (.invpcidR32 ps reg mem) s d →
    typeR32 s reg ≤ 3#64 → descReserved d = 0#52 →
    (typeR32 s reg = 0#64 ∨ typeR32 s reg = 1#64 → PcidAllowed s d) →
    (typeR32 s reg = 0#64 → canonical s.cfg.laWidthDesc (descLinear d) = true) →
    exec (.invpcidR32 ps reg mem) s = .next { s with
      tc := s.tc.filter fun e =>
        !mustInvalidate (typeR32 s reg) (descPcid d) (descLinear d) e && Config.survives s.draw e
      rip := nextRip s (invpcidLength ps none mem)
      draw := s.draw + 1 }

/-- The r64 form completes on every valid operand, with the next state the rules give (`40_invpcid.md` rules R121, R122).
The free values are those of the r32 statement. -/
def Obligations.ValidR64InvpcidCompletes : Prop :=
  ∀ (ps : List Prefix) (rex : Option Rex) (reg : BitVec 3) (mem : MemOperand) (s : State) (d : Descriptor),
    ReadsDescriptor (.invpcidR64 ps rex reg mem) s d →
    typeR64 s rex reg ≤ 3#64 → descReserved d = 0#52 →
    (typeR64 s rex reg = 0#64 ∨ typeR64 s rex reg = 1#64 → PcidAllowed s d) →
    (typeR64 s rex reg = 0#64 → canonical s.cfg.laWidthDesc (descLinear d) = true) →
    exec (.invpcidR64 ps rex reg mem) s = .next { s with
      tc := s.tc.filter fun e =>
        !mustInvalidate (typeR64 s rex reg) (descPcid d) (descLinear d) e && Config.survives s.draw e
      rip := nextRip s (invpcidLength ps rex mem)
      draw := s.draw + 1 }

/-- Type 0: the non-global mappings for the descriptor's linear address and PCID are gone, and no mapping is added
(`40_invpcid.md` rule R125). Nothing is said of the others: they may be gone as well. -/
def Obligations.TypeZeroInvalidatesTheAddress : Prop :=
  ∀ (i : Instr) (s : State) (d : Descriptor),
    ReadsDescriptor i s d → (decodedIn s i).type = 0#64 → descReserved d = 0#52 → PcidAllowed s d →
    canonical s.cfg.laWidthDesc (descLinear d) = true →
    ∃ t, exec i s = .next t ∧ t.tc.Sublist s.tc ∧
      ∀ e ∈ s.tc, e.isGlobal = false → e.pcid = descPcid d → inRanges e.region (descLinear d).toNat = true → e ∉ t.tc

/-- Type 1: the non-global mappings of the descriptor's PCID are gone; the linear address is not checked
(`40_invpcid.md` rule R126). -/
def Obligations.TypeOneInvalidatesThePcid : Prop :=
  ∀ (i : Instr) (s : State) (d : Descriptor),
    ReadsDescriptor i s d → (decodedIn s i).type = 1#64 → descReserved d = 0#52 → PcidAllowed s d →
    ∃ t, exec i s = .next t ∧ t.tc.Sublist s.tc ∧
      ∀ e ∈ s.tc, e.isGlobal = false → e.pcid = descPcid d → e ∉ t.tc

/-- Type 2: every mapping is gone, global ones included. Neither field of the descriptor is used; it is still read (where it
is not, nothing completes), and its reserved bits are still checked (`40_invpcid.md` rule R127). -/
def Obligations.TypeTwoEmptiesTheCaches : Prop :=
  ∀ (i : Instr) (s : State), Admitted i s → (decodedIn s i).type = 2#64 →
    (∀ d, operandRead i s = .value d → descReserved d = 0#52 → ∃ t, exec i s = .next t ∧ t.tc = []) ∧
    (∀ d, operandRead i s = .value d → descReserved d ≠ 0#52 →
      exec i s = .fault (if s.mode = .realAddress then .gp none else .gp (some 0))) ∧
    ((∀ d, operandRead i s ≠ .value d) → ∀ t, exec i s ≠ .next t)

/-- Type 3: every non-global mapping is gone; neither field of the descriptor is used (`40_invpcid.md` rule R128). -/
def Obligations.TypeThreeInvalidatesAllButGlobal : Prop :=
  ∀ (i : Instr) (s : State) (d : Descriptor),
    ReadsDescriptor i s d → (decodedIn s i).type = 3#64 → descReserved d = 0#52 →
    ∃ t, exec i s = .next t ∧ t.tc.Sublist s.tc ∧ ∀ e ∈ s.tc, e.isGlobal = false → e ∉ t.tc

/-- Whatever completes leaves exactly the entries that are outside the must-set of its type and that the free choice of
this execution keeps (`40_invpcid.md` rule R129; the must-sets written out from rules R125 to R128). -/
def Obligations.ResultIsAFreeSubsetOutsideTheMustSet : Prop :=
  ∀ (i : Instr) (s t : State), exec i s = .next t →
    ∃ d, operandRead i s = .value d ∧ ∀ e, e ∈ t.tc ↔
      e ∈ s.tc ∧ Config.survives s.draw e = true ∧
      ((decodedIn s i).type = 0#64 →
        ¬(e.isGlobal = false ∧ e.pcid = descPcid d ∧ inRanges e.region (descLinear d).toNat = true)) ∧
      ((decodedIn s i).type = 1#64 → ¬(e.isGlobal = false ∧ e.pcid = descPcid d)) ∧
      (decodedIn s i).type ≠ 2#64 ∧
      ((decodedIn s i).type = 3#64 → e.isGlobal = true)

/-- Both kinds of cached entry are treated alike, and what else an entry caches is not looked at
(`40_invpcid.md` rule R138; `10_state.md` rule R31). -/
def Obligations.MustSetIgnoresKindAndPayload : Prop :=
  ∀ (type : Word) (pcid : Pcid) (linear : Word) (e : CacheEntry) (k : CacheKind) (n : Nat),
    mustInvalidate type pcid linear { e with kind := k, payload := n } = mustInvalidate type pcid linear e

/-- `CR4.PCIDE = 0` (`40_invpcid.md` rule R130): types 0 and 1 complete only with PCID 000H, and whatever is invalidated
has PCID 000H, before and after. -/
def Obligations.PcideOffConfinesToPcidZero : Prop :=
  ∀ (i : Instr) (s t : State), s.cr4Pcide = false → NoPcidWhenDisabled s → exec i s = .next t →
    (∃ d, operandRead i s = .value d ∧
      ((decodedIn s i).type = 0#64 ∨ (decodedIn s i).type = 1#64 → descPcid d = 0#12)) ∧
    (∀ e ∈ s.tc, e ∉ t.tc → e.pcid = 0#12) ∧ NoPcidWhenDisabled t

/-! ### Fields that are not used -/

/-- For types 1, 2 and 3 the linear-address field has no effect: two memories whose descriptors agree on bits 63:0 give the
same outcome (`40_invpcid.md` rule R133). Rule R129 makes what survives free per execution, and R168 which exception is
reported; that both runs choose alike is the model's choice: they share one draw (log entries 8 and 7). -/
def Obligations.LinearAddressUnusedByTypesOneToThree : Prop :=
  ∀ (i : Instr) (s : State) (m : Memory) (d d' : Descriptor),
    (decodedIn s i).type ≠ 0#64 →
    operandRead i s = .value d → operandRead i { s with mem := m } = .value d' →
    d.extractLsb' 0 64 = d'.extractLsb' 0 64 →
    (∀ t, exec i s = .next t → exec i { s with mem := m } = .next { t with mem := m }) ∧
    (∀ f, exec i s = .fault f → exec i { s with mem := m } = .fault f) ∧
    (∀ r, exec i s = .refused r → exec i { s with mem := m } = .refused r)

/-- For types 2 and 3 the PCID field has no effect either: two memories whose descriptors agree on the reserved bits give the
same outcome (`40_invpcid.md` rules R133, R134). That both runs make the same free choices is the model's choice: they share
one draw (log entries 8 and 7). -/
def Obligations.PcidUnusedByTypesTwoAndThree : Prop :=
  ∀ (i : Instr) (s : State) (m : Memory) (d d' : Descriptor),
    (decodedIn s i).type = 2#64 ∨ (decodedIn s i).type = 3#64 →
    operandRead i s = .value d → operandRead i { s with mem := m } = .value d' →
    descReserved d = descReserved d' →
    (∀ t, exec i s = .next t → exec i { s with mem := m } = .next { t with mem := m }) ∧
    (∀ f, exec i s = .fault f → exec i { s with mem := m } = .fault f) ∧
    (∀ r, exec i s = .refused r → exec i { s with mem := m } = .refused r)

/-- The r32 form does not look at bits 63:32 of any register: changing them in one register changes nothing but that
register's own upper half (`40_invpcid.md` rule R120; `10_state.md` rule R21). That both runs keep the same surviving entries
and report the same fault is the model's choice: they share one draw (log entries 8 and 7). The premise `SoleAgent` of
`70_reset_and_hazards.md` rule R197 is not taken: operand bytes that another agent may write are oracle answers, the same in
both runs by the same choice (log entry 18). -/
def Obligations.R32IgnoresUpperRegisterHalves : Prop :=
  ∀ (ps : List Prefix) (reg : BitVec 3) (mem : MemOperand) (s : State) (r : Reg) (upper : BitVec 32),
    mem.size ≠ .a64 →
    (∀ t, exec (.invpcidR32 ps reg mem) s = .next t →
      exec (.invpcidR32 ps reg mem) (writeReg s r (upper ++ (readReg s r).extractLsb' 0 32)) =
        .next (writeReg t r (upper ++ (readReg s r).extractLsb' 0 32))) ∧
    (∀ f, exec (.invpcidR32 ps reg mem) s = .fault f →
      exec (.invpcidR32 ps reg mem) (writeReg s r (upper ++ (readReg s r).extractLsb' 0 32)) = .fault f)

/-! ### Exceptions -/

/-- Virtual-8086 mode: every execution raises `#GP(0)`; with LOCK or without the feature, `#UD` or `#GP(0)`, by decision D20
of the spec (`60_exceptions.md` rules R163, R168; which of the two is the free choice of log entry 7). -/
def Obligations.Virtual8086AlwaysFaults : Prop :=
  ∀ (ps : List Prefix) (reg : BitVec 3) (mem : MemOperand) (s : State), s.mode = .virtual8086 →
    (lockPresent ps = false → s.cfg.hasInvpcid = true →
      exec (.invpcidR32 ps reg mem) s = .fault (.gp (some 0))) ∧
    (lockPresent ps = true ∨ s.cfg.hasInvpcid = false →
      exec (.invpcidR32 ps reg mem) s = .fault .ud ∨ exec (.invpcidR32 ps reg mem) s = .fault (.gp (some 0)))

/-- LOCK, or the feature absent (UD1, UD2 of `60_exceptions.md` rule R166): the execution faults; it raises `#UD` where no
condition of another class holds, and in the default order always. -/
def Obligations.LockOrMissingFeatureFaults : Prop :=
  ∀ (i : Instr) (s : State), i.validIn s.mode = true → lockPresent i.prefixes = true ∨ s.cfg.hasInvpcid = false →
    (∃ f, exec i s = .fault f) ∧
    ((∀ c ∈ conditionsOf i s, c = .ud1 ∨ c = .ud2) → PcideOnlyIn64 s → exec i s = .fault .ud) ∧
    (s.cfg.faultOrder = .defaultOrder → exec i s = .fault .ud)

/-- A privilege level other than 0 in protected, compatibility or 64-bit mode (GP2 of `60_exceptions.md` rule R166): the
execution faults, with `#GP(0)` unless a condition of another class holds as well. An operand read that raises only
`#GP(0)`, raises nothing or is refused is no condition of another class. -/
def Obligations.NonzeroPrivilegeFaults : Prop :=
  ∀ (i : Instr) (s : State), i.validIn s.mode = true →
    s.mode = .protectedMode ∨ s.mode = .compatibility ∨ s.mode = .sixtyFourBit → s.cpl ≠ 0 →
    (∃ f, exec i s = .fault f) ∧
    (lockPresent i.prefixes = false → s.cfg.hasInvpcid = true →
      (∀ c ∈ raisedBy (operandRead i s), c = .gp3 ∨ c = .gp4 ∨ c = .gp5 ∨ c = .gp6) →
      exec i s = .fault (.gp (some 0)))

/-- Protected and compatibility mode: an operand in SS outside its limit or with SS unusable raises `#SS(0)`; in another
segment outside its limit, unusable, or in an execute-only CS, `#GP(0)` (`20_memory.md` rules R55, R66). -/
def Obligations.SegmentViolationsFault : Prop :=
  ∀ (i : Instr) (s : State), Admitted i s → s.mode = .protectedMode ∨ s.mode = .compatibility →
    (decodedIn s i).ea.toNat + 15 < 2 ^ (decodedIn s i).size.bits → (decodedIn s i).type ≤ 3#64 →
    ((decodedIn s i).seg = .ss → s.ss.unusable = true ∨ limitOk s.ss (decodedIn s i).ea.toNat 16 = false →
      exec i s = .fault (.ss 0)) ∧
    ((decodedIn s i).seg ≠ .ss →
      limitOk (segAttrs s (decodedIn s i).seg) (decodedIn s i).ea.toNat 16 = false ∨
        ((decodedIn s i).seg ≠ .cs ∧ (segAttrs s (decodedIn s i).seg).unusable = true) ∨
        ((decodedIn s i).seg = .cs ∧ s.cs.executeOnly = true) →
      exec i s = .fault (.gp (some 0)))

/-- 64-bit mode: an operand with a byte at a non-canonical linear address raises `#SS(0)` in SS and `#GP(0)` elsewhere
(`20_memory.md` rules R56, R66). -/
def Obligations.NonCanonicalOperandFaults : Prop :=
  ∀ (i : Instr) (s : State) (k : Nat), Admitted i s → s.mode = .sixtyFourBit →
    (decodedIn s i).ea.toNat + 15 < 2 ^ (decodedIn s i).size.bits → (decodedIn s i).type ≤ 3#64 →
    k < 16 → canonical s.cfg.laWidth (linearAddr s (decodedIn s i).seg (decodedIn s i).ea k) = false →
    exec i s = .fault (if (decodedIn s i).seg = .ss then .ss 0 else .gp (some 0))

/-- A page fault on a byte of the operand raises `#PF` with the code that `translate` gives, whatever the type
(`20_memory.md` rules R51, R58, R66). Where several bytes fault with different codes the reported one is open.
That the fault is reported also where another byte is not ordinary memory is the model's choice (log entry 6). -/
def Obligations.OperandPageFaultIsReported : Prop :=
  ∀ (i : Instr) (s : State) (k code : Nat), Admitted i s → s.mode ≠ .realAddress →
    (decodedIn s i).ea.toNat + 15 < 2 ^ (decodedIn s i).size.bits → (decodedIn s i).type ≤ 3#64 →
    addressConditions s (decodedIn s i).seg (decodedIn s i).ea = [] →
    k < 16 → translateAddr s .read (linearAddr s (decodedIn s i).seg (decodedIn s i).ea k) = .pageFault code →
    (∀ k' < 16, ∀ code', translateAddr s .read (linearAddr s (decodedIn s i).seg (decodedIn s i).ea k') = .pageFault code' →
      code' = code) →
    exec i s = .fault (.pf code)

/-- The four checks of the operands' values: each ends the instruction with `#GP(0)`, in real-address mode with `#GP`;
where none holds there is no fault (`40_invpcid.md` rule R124). -/
def Obligations.OperandValueChecks : Prop :=
  ∀ (i : Instr) (s : State) (d : Descriptor), ReadsDescriptor i s d →
    ((decodedIn s i).type > 3#64 ∨ descReserved d ≠ 0#52 ∨
        (s.cr4Pcide = false ∧ ((decodedIn s i).type = 0#64 ∨ (decodedIn s i).type = 1#64) ∧ descPcid d ≠ 0#12) ∨
        ((decodedIn s i).type = 0#64 ∧ canonical s.cfg.laWidthDesc (descLinear d) = false) →
      exec i s = .fault (if s.mode = .realAddress then .gp none else .gp (some 0))) ∧
    (¬((decodedIn s i).type > 3#64 ∨ descReserved d ≠ 0#52 ∨
        (s.cr4Pcide = false ∧ ((decodedIn s i).type = 0#64 ∨ (decodedIn s i).type = 1#64) ∧ descPcid d ≠ 0#12) ∨
        ((decodedIn s i).type = 0#64 ∧ canonical s.cfg.laWidthDesc (descLinear d) = false)) →
      ∀ f, exec i s ≠ .fault f)

/-- The reported exception is that of a condition that holds (`60_exceptions.md` rules R166, R168). -/
def Obligations.ReportedFaultIsOfAConditionThatHolds : Prop :=
  ∀ (i : Instr) (s : State) (f : Fault), PcideOnlyIn64 s → exec i s = .fault f →
    ∃ c ∈ conditionsOf i s, f = c.fault s.mode

/-- An instruction completes exactly when no condition holds and its operand read gives a value: every other ending of the
read is a condition or one of the spec's refusals (`60_exceptions.md` rules R166, R167). -/
def Obligations.CompletesExactlyWithoutConditions : Prop :=
  ∀ (i : Instr) (s : State), i.validIn s.mode = true → PcideOnlyIn64 s →
    ((∃ t, exec i s = .next t) ↔ conditionsOf i s = [] ∧ ∃ d, operandRead i s = .value d)

/-- A condition that holds ends the instruction with a fault, but where the operand read is refused and step A holds
nothing (`60_exceptions.md` rules R166, R168 (e)). -/
def Obligations.AConditionThatHoldsFaults : Prop :=
  ∀ (i : Instr) (s : State), i.validIn s.mode = true → conditionsOf i s ≠ [] →
    entryConditions (lockPresent i.prefixes) s ≠ [] ∨ (∀ r, operandRead i s ≠ .refused r) →
    ∃ f, exec i s = .fault f

/-- Conditions that raise the same exception are indistinguishable (`60_exceptions.md` rule R168 (b)): where all that hold
raise one exception, it is reported. -/
def Obligations.OneExceptionIsReportedForEveryChoice : Prop :=
  ∀ (i : Instr) (s : State) (f : Fault), PcideOnlyIn64 s → (∃ f', exec i s = .fault f') →
    (∀ c ∈ conditionsOf i s, c.fault s.mode = f) → exec i s = .fault f

/-- The default order `FAULT_ORDER`: UD2, UD1, GP1, GP2, the operand read, GP7, GP8, GP9, GP10 (`60_exceptions.md` rule
R168 (d)); the first condition that holds is reported. The order is the spec's choice, taken only where the parameter
says so. -/
def Obligations.DefaultOrderReportsTheFirst : Prop :=
  ∀ (i : Instr) (s : State) (f : Fault), s.cfg.faultOrder = .defaultOrder → PcideOnlyIn64 s → exec i s = .fault f →
    ∃ c cs, conditionsOf i s = c :: cs ∧ f = c.fault s.mode

/-- The exceptions of each mode and their error codes (`60_exceptions.md` rules R160 to R165): real-address mode raises
`#UD` and `#GP` without a code, virtual-8086 mode `#UD` and `#GP(0)`, the other three `#UD`, `#GP(0)`, `#SS(0)` and
`#PF`. -/
def Obligations.ExceptionsOfEachMode : Prop :=
  ∀ (i : Instr) (s : State) (f : Fault), exec i s = .fault f →
    (s.mode = .realAddress → f = .ud ∨ f = .gp none) ∧
    (s.mode = .virtual8086 → f = .ud ∨ f = .gp (some 0)) ∧
    (s.mode ≠ .realAddress → s.mode ≠ .virtual8086 →
      f = .ud ∨ f = .gp (some 0) ∨ f = .ss 0 ∨ ∃ code, f = .pf code)

/-! ### Refusals -/

/-- A form in a mode that cannot encode it is refused (`30_encoding.md` rule R95). -/
def Obligations.FormOfAnotherModeRefused : Prop :=
  ∀ (i : Instr) (s : State), i.validIn s.mode = false → exec i s = .refused .formNotEncodable

/-- The three refusals of the operand read: offsets past the end of the offset space, in real-address mode outside the
segment limit, in memory that is not ordinary (`20_memory.md` rules R50, R54, R57, R66; decisions D15, D27 of the
spec). -/
def Obligations.OperandReadRefusals : Prop :=
  ∀ (i : Instr) (s : State), Admitted i s →
    (2 ^ (decodedIn s i).size.bits ≤ (decodedIn s i).ea.toNat + 15 → exec i s = .refused .operandPastOffsetSpace) ∧
    ((decodedIn s i).ea.toNat + 15 < 2 ^ (decodedIn s i).size.bits → s.mode = .realAddress →
      limitOk (segAttrs s (decodedIn s i).seg) (decodedIn s i).ea.toNat 16 = false →
      exec i s = .refused .operandPastRealModeLimit) ∧
    ((decodedIn s i).ea.toNat + 15 < 2 ^ (decodedIn s i).size.bits →
      addressConditions s (decodedIn s i).seg (decodedIn s i).ea = [] →
      (s.mode = .realAddress → limitOk (segAttrs s (decodedIn s i).seg) (decodedIn s i).ea.toNat 16 = true) →
      (∀ k < 16, ∃ p, translateAddr s .read (linearAddr s (decodedIn s i).seg (decodedIn s i).ea k) = .phys p) →
      (∃ k < 16, ∃ p, translateAddr s .read (linearAddr s (decodedIn s i).seg (decodedIn s i).ea k) = .phys p ∧
        inRanges s.nonOrdinary p = true) →
      exec i s = .refused .operandNotOrdinaryMemory)

/-- `CR4.PCIDE = 1` outside 64-bit mode with type 0 or 1 and a non-zero PCID is refused where nothing else faults
(`10_state.md` rule R28; decision D9 of the spec). -/
def Obligations.PcideOutside64BitModeRefused : Prop :=
  ∀ (i : Instr) (s : State) (d : Descriptor), ReadsDescriptor i s d →
    s.cr4Pcide = true → s.mode ≠ .sixtyFourBit →
    (decodedIn s i).type = 0#64 ∨ (decodedIn s i).type = 1#64 → descPcid d ≠ 0#12 → descReserved d = 0#52 →
    ((decodedIn s i).type = 0#64 → canonical s.cfg.laWidthDesc (descLinear d) = true) →
    exec i s = .refused .pcideOutside64BitMode

/-- An instruction in its own mode is refused only by its operand read or in the state decision D9 leaves open, which the
source's invariant excludes. -/
def Obligations.RefusedOnlyByTheOperandRead : Prop :=
  ∀ (i : Instr) (s : State) (r : Refusal), i.validIn s.mode = true → PcideOnlyIn64 s → exec i s = .refused r →
    operandRead i s = .refused r ∧
      (r = .operandPastOffsetSpace ∨ (r = .operandPastRealModeLimit ∧ s.mode = .realAddress) ∨
        r = .operandNotOrdinaryMemory)

/-! ### Frame and instruction pointer -/

/-- What a completed INVPCID of either form leaves unchanged: everything but the caches (only removals), `rIP` and the
model's draw (`10_state.md` rule R34, `40_invpcid.md` rule R132). It says what INVPCID does; another agent's stores in its own
ranges are not in `mem` (log entry 18). -/
def Obligations.CompletedInvpcidFrame : Prop :=
  ∀ (i : Instr) (s t : State), exec i s = .next t →
    (∀ r, readReg t r = readReg s r) ∧ t.rflags = s.rflags ∧
    t.mode = s.mode ∧ t.cpl = s.cpl ∧ t.csD = s.csD ∧ t.cr4Pcide = s.cr4Pcide ∧
    (∀ r, segAttrs t r = segAttrs s r) ∧ t.paging = s.paging ∧ t.xlat = s.xlat ∧
    t.nonOrdinary = s.nonOrdinary ∧ t.otherWriters = s.otherWriters ∧ t.cfg = s.cfg ∧
    (∀ a, t.mem.read a = s.mem.read a) ∧ t.mem = s.mem ∧ t.tc.Sublist s.tc

/-- A completed INVPCID advances `rIP` by its length, where the sum stays in the instruction-pointer space
(`10_state.md` rule R23, decision D6 of the spec). -/
def Obligations.InstructionPointerAdvancesByLength : Prop :=
  ∀ (i : Instr) (s t : State), exec i s = .next t → ipValue s + i.length < 2 ^ ipWidth s →
    t.rip = s.rip + BitVec.ofNat 64 i.length ∧ ipValue t = ipValue s + i.length

/-! ### Invariants -/

/-- Every step keeps the invariant: `CR4.PCIDE = 1` only in 64-bit mode, no PCID cached while it is 0, memory in canonical
form, and caches without repeats (`10_state.md` rules R28 (a), R31, R32). -/
def Obligations.EveryStepKeepsTheInvariant : Prop :=
  ∀ s t : State, StateInv s → step s = .next t → StateInv t

/-- The reset state meets the invariant. The cache contents and memory of reset are the model's choice (log entries 2
and 3). -/
def Obligations.ResetMeetsTheInvariant : Prop := StateInv State.reset

/-- INVPCID preserves "does not cache information for any PCID other than 000H" (`10_state.md` rule R32). -/
def Obligations.InvpcidPreservesNoPcidWhenDisabled : Prop :=
  ∀ (i : Instr) (s t : State), exec i s = .next t → NoPcidWhenDisabled s →
    t.cr4Pcide = s.cr4Pcide ∧ (∀ e ∈ t.tc, e ∈ s.tc) ∧ NoPcidWhenDisabled t

/-- Along any run from any state only the caches, `rIP` and the model's draw change, the caches only lose entries, and the
invariant is kept (`10_state.md` rules R20, R34). That nothing fills the caches between steps is the premise `NoFillAgent` of
`70_reset_and_hazards.md` rule R197, which the model takes (log entry 15). The bytes another agent stores in its own ranges are
not those `mem` lists (log entry 18). -/
def Obligations.RunsOnlyRemoveMappings : Prop :=
  ∀ (k : Nat) (s t : State), core.run k s = .next t →
    t.tc.Sublist s.tc ∧ t.regs = s.regs ∧ t.rflags = s.rflags ∧ t.mode = s.mode ∧ t.cpl = s.cpl ∧ t.csD = s.csD ∧
      t.cr4Pcide = s.cr4Pcide ∧ (∀ r, segAttrs t r = segAttrs s r) ∧ t.paging = s.paging ∧ t.xlat = s.xlat ∧
      t.mem = s.mem ∧ t.nonOrdinary = s.nonOrdinary ∧ t.otherWriters = s.otherWriters ∧ t.cfg = s.cfg ∧
      (StateInv s → StateInv t)

/-- The reset state: real-address mode, CPL 0, `CR4.PCIDE = 0` and the first fetch at FFFFFFF0H (`10_state.md` rule R36,
K10: the architecture's reset state, general knowledge of the spec; log entry 2). -/
def Obligations.ResetFetchesAtTheResetVector : Prop :=
  State.reset.mode = .realAddress ∧ State.reset.cpl = 0 ∧ State.reset.cr4Pcide = false ∧
    fetchPhys State.reset 0 = some 0xFFFFFFF0

/-! ### Operands -/

/-- The descriptor that was read is made of its sixteen bytes, least significant lowest (`20_memory.md` rules R52, R61, R66;
byte order: decision D1 of the spec). A byte is what memory holds under the premise `SoleAgent` of
`70_reset_and_hazards.md` rule R197, or where no other agent may write that byte; else it is an oracle answer (decision D12;
log entry 18). -/
def Obligations.DescriptorIsReadLittleEndian : Prop :=
  ∀ (i : Instr) (s : State) (d : Descriptor), operandRead i s = .value d → ∀ k < 16,
    ∃ p, translateAddr s .read (linearAddr s (decodedIn s i).seg (decodedIn s i).ea k) = .phys p ∧
      (SoleAgent i s ∨ inRanges s.otherWriters p = false → d.extractLsb' (8 * k) 8 = s.mem.read p) ∧
      (inRanges s.otherWriters p = true → d.extractLsb' (8 * k) 8 = Config.oracleByte s.draw k p)

/-- In 64-bit mode an operand is read when its offsets stay in the offset space, its sixteen bytes are canonical, translate,
and are ordinary memory, at any alignment (`20_memory.md` rules R53, R56, R58, R66). -/
def Obligations.ReadableOperandIsReadIn64BitMode : Prop :=
  ∀ (i : Instr) (s : State), s.mode = .sixtyFourBit →
    (decodedIn s i).ea.toNat + 15 < 2 ^ (decodedIn s i).size.bits →
    (∀ k < 16, canonical s.cfg.laWidth (linearAddr s (decodedIn s i).seg (decodedIn s i).ea k) = true) →
    (∀ k < 16, ∃ p, translateAddr s .read (linearAddr s (decodedIn s i).seg (decodedIn s i).ea k) = .phys p ∧
      inRanges s.nonOrdinary p = false) →
    ∃ d, operandRead i s = .value d

/-- In protected, compatibility and real-address mode an operand is read when its offsets stay in the offset space and inside
the limit, its segment is usable and not an execute-only CS (not asked of real-address mode), and its sixteen bytes
translate and are ordinary memory (`20_memory.md` rules R53, R55, R57, R58, R66). -/
def Obligations.ReadableOperandIsReadOutside64BitMode : Prop :=
  ∀ (i : Instr) (s : State), s.mode = .protectedMode ∨ s.mode = .compatibility ∨ s.mode = .realAddress →
    (decodedIn s i).ea.toNat + 15 < 2 ^ (decodedIn s i).size.bits →
    limitOk (segAttrs s (decodedIn s i).seg) (decodedIn s i).ea.toNat 16 = true →
    (s.mode ≠ .realAddress → (decodedIn s i).seg ≠ .cs → (segAttrs s (decodedIn s i).seg).unusable = false) →
    (s.mode ≠ .realAddress → (decodedIn s i).seg = .cs → s.cs.executeOnly = false) →
    (∀ k < 16, ∃ p, translateAddr s .read (linearAddr s (decodedIn s i).seg (decodedIn s i).ea k) = .phys p ∧
      inRanges s.nonOrdinary p = false) →
    ∃ d, operandRead i s = .value d

/-- The linear address of byte `k` of the operand (`20_memory.md` rule R50): base zero for CS, DS, ES and SS in 64-bit mode,
modulo 2^64; the segment's base, modulo 2^32, outside it. -/
def Obligations.LinearAddressFormula : Prop :=
  ∀ (s : State) (r : SegReg) (ea : Word) (k : Nat),
    (s.mode = .sixtyFourBit → r = .fs ∨ r = .gs →
      (linearAddr s r ea k).toNat = ((segAttrs s r).base.toNat + ea.toNat + k) % 2 ^ 64) ∧
    (s.mode = .sixtyFourBit → r ≠ .fs → r ≠ .gs → (linearAddr s r ea k).toNat = (ea.toNat + k) % 2 ^ 64) ∧
    (s.mode ≠ .sixtyFourBit → (linearAddr s r ea k).toNat = ((segAttrs s r).base.toNat + ea.toNat + k) % 2 ^ 32)

/-- Canonical for a width of 1 to 64 bits: bits 63 down to `width - 1` are all equal, that is, the address lies in the lowest
or the highest `2^(width-1)` (`20_memory.md` rule R59). -/
def Obligations.CanonicalAddressesAreTheTwoHalves : Prop :=
  ∀ (width : Nat) (a : Word), 1 ≤ width → width ≤ 64 →
    (canonical width a = true ↔ a.toNat < 2 ^ (width - 1) ∨ 2 ^ 64 - 2 ^ (width - 1) ≤ a.toNat)

/-- The segment of the operand (`30_encoding.md` rules R85 to R87, R90): an override wins outside 64-bit mode; in 64-bit mode
only FS and GS do; else the default segment. That is SS where the base register's number is 4 or 5 and for the 16-bit forms
with BP, and DS for every other shape of operand. -/
def Obligations.OperandSegmentRules : Prop :=
  ∀ (m : Mode) (ps : List Prefix) (rex : Option Rex) (mem : MemOperand) (r : SegReg),
    (segOverride ps = some r → m ≠ .sixtyFourBit → operandSeg m ps rex mem = r) ∧
    (segOverride ps = some r → m = .sixtyFourBit → r = .fs ∨ r = .gs → operandSeg m ps rex mem = r) ∧
    (segOverride ps = some r → m = .sixtyFourBit → r ≠ .fs → r ≠ .gs → operandSeg m ps rex mem = defaultSeg rex mem) ∧
    (segOverride ps = none → operandSeg m ps rex mem = defaultSeg rex mem) ∧
    (∀ b d, defaultSeg rex (.addr16 (.based b d)) = if b = .bpSi ∨ b = .bpDi ∨ b = .bp then .ss else .ds) ∧
    (∀ v, defaultSeg rex (.addr16 (.absolute v)) = .ds) ∧
    ∀ long : EaLong → MemOperand, long = .addr32 ∨ long = .addr64 →
      (∀ rm d, defaultSeg rex (long (.based rm d)) =
        if rexB rex = false ∧ (rm = 4#3 ∨ rm = 5#3) then .ss else .ds) ∧
      (∀ sc ix b d, defaultSeg rex (long (.sib sc ix b d)) =
        if rexB rex = false ∧ (b = 4#3 ∨ b = 5#3) then .ss else .ds) ∧
      (∀ sc ix v, defaultSeg rex (long (.sibNoBase sc ix v)) = .ds) ∧
      (∀ v, defaultSeg rex (long (.disp32 v)) = .ds)

/-- The effective address of 64-bit addressing (`30_encoding.md` rules R87, R88): base plus index times 2^scale plus signed
displacement, modulo 2^64; no index when `X ++ index = 0100`; no base when `mod = 00, base = 101`; `mod = 00, rm = 101` is
relative to the next instruction. -/
def Obligations.EffectiveAddress64Formula : Prop :=
  ∀ (s : State) (rex : Option Rex) (len : Nat) (sc : BitVec 2) (ix b : BitVec 3) (d : Disp 32) (v : BitVec 32),
    ((effAddr s rex len (.addr64 (.based b d))).toNat : Int) =
      ((x64 s (regNumber (rexB rex) b)).toNat + signedDisp d) % 2 ^ 64 ∧
    (regNumber (rexX rex) ix ≠ 4#4 →
      ((effAddr s rex len (.addr64 (.sib sc ix b d))).toNat : Int) =
        ((x64 s (regNumber (rexB rex) b)).toNat + (x64 s (regNumber (rexX rex) ix)).toNat * 2 ^ sc.toNat
          + signedDisp d) % 2 ^ 64 ∧
      ((effAddr s rex len (.addr64 (.sibNoBase sc ix v))).toNat : Int) =
        ((x64 s (regNumber (rexX rex) ix)).toNat * 2 ^ sc.toNat + v.toInt) % 2 ^ 64) ∧
    (regNumber (rexX rex) ix = 4#4 →
      ((effAddr s rex len (.addr64 (.sib sc ix b d))).toNat : Int) =
        ((x64 s (regNumber (rexB rex) b)).toNat + signedDisp d) % 2 ^ 64 ∧
      ((effAddr s rex len (.addr64 (.sibNoBase sc ix v))).toNat : Int) = v.toInt % 2 ^ 64) ∧
    ((effAddr s rex len (.addr64 (.disp32 v))).toNat : Int) = (s.rip.toNat + len + v.toInt) % 2 ^ 64

/-- The effective address of 16- and 32-bit addressing stays below 2^16 and 2^32 (`30_encoding.md` rules R85, R86), and a
bare `d32` is an address outside 64-bit mode and relative to the next instruction in it. -/
def Obligations.EffectiveAddressStaysInItsSize : Prop :=
  ∀ (s : State) (rex : Option Rex) (len : Nat) (mem : MemOperand) (v : BitVec 32),
    (effAddr s rex len mem).toNat < 2 ^ mem.size.bits ∧
    (s.mode ≠ .sixtyFourBit → (effAddr s rex len (.addr32 (.disp32 v))).toNat = v.toNat) ∧
    (s.mode = .sixtyFourBit →
      (effAddr s rex len (.addr32 (.disp32 v))).toNat = (s.rip.toNat + len + v.toNat) % 2 ^ 32)

/-- The effective address of 16-bit addressing (`30_encoding.md` rules R85, R88): the registers of each value of `rm` plus the
signed displacement, modulo 2^16; `mod = 00, rm = 110` is `d16` alone. -/
def Obligations.EffectiveAddress16Formula : Prop :=
  ∀ (s : State) (rex : Option Rex) (len : Nat) (d : Disp 16) (v : BitVec 16),
    let ea := fun b => ((effAddr s rex len (.addr16 (.based b d))).toNat : Int)
    ea .bxSi = ((readReg s .rbx).toNat + (readReg s .rsi).toNat + signedDisp d) % 2 ^ 16 ∧
    ea .bxDi = ((readReg s .rbx).toNat + (readReg s .rdi).toNat + signedDisp d) % 2 ^ 16 ∧
    ea .bpSi = ((readReg s .rbp).toNat + (readReg s .rsi).toNat + signedDisp d) % 2 ^ 16 ∧
    ea .bpDi = ((readReg s .rbp).toNat + (readReg s .rdi).toNat + signedDisp d) % 2 ^ 16 ∧
    ea .si = ((readReg s .rsi).toNat + signedDisp d) % 2 ^ 16 ∧
    ea .di = ((readReg s .rdi).toNat + signedDisp d) % 2 ^ 16 ∧
    ea .bp = ((readReg s .rbp).toNat + signedDisp d) % 2 ^ 16 ∧
    ea .bx = ((readReg s .rbx).toNat + signedDisp d) % 2 ^ 16 ∧
    (effAddr s rex len (.addr16 (.absolute v))).toNat = v.toNat

/-- The effective address of 32-bit addressing (`30_encoding.md` rules R86, R88): as 64-bit addressing with the low halves of
the registers, modulo 2^32; `mod = 00, rm = 101` is `d32` alone outside 64-bit mode and relative to the next instruction in
it. Outside 64-bit mode there is no REX, so an index of 100 is none and a register number is its field. -/
def Obligations.EffectiveAddress32Formula : Prop :=
  ∀ (s : State) (rex : Option Rex) (len : Nat) (sc : BitVec 2) (ix b : BitVec 3) (d : Disp 32) (v : BitVec 32),
    ((effAddr s rex len (.addr32 (.based b d))).toNat : Int) =
      ((x64 s (regNumber (rexB rex) b)).toNat + signedDisp d) % 2 ^ 32 ∧
    (regNumber (rexX rex) ix ≠ 4#4 →
      ((effAddr s rex len (.addr32 (.sib sc ix b d))).toNat : Int) =
        ((x64 s (regNumber (rexB rex) b)).toNat + (x64 s (regNumber (rexX rex) ix)).toNat * 2 ^ sc.toNat
          + signedDisp d) % 2 ^ 32 ∧
      ((effAddr s rex len (.addr32 (.sibNoBase sc ix v))).toNat : Int) =
        ((x64 s (regNumber (rexX rex) ix)).toNat * 2 ^ sc.toNat + v.toInt) % 2 ^ 32) ∧
    (regNumber (rexX rex) ix = 4#4 →
      ((effAddr s rex len (.addr32 (.sib sc ix b d))).toNat : Int) =
        ((x64 s (regNumber (rexB rex) b)).toNat + signedDisp d) % 2 ^ 32 ∧
      ((effAddr s rex len (.addr32 (.sibNoBase sc ix v))).toNat : Int) = v.toInt % 2 ^ 32) ∧
    (s.mode ≠ .sixtyFourBit → (effAddr s rex len (.addr32 (.disp32 v))).toNat = v.toNat) ∧
    (s.mode = .sixtyFourBit →
      ((effAddr s rex len (.addr32 (.disp32 v))).toNat : Int) = (s.rip.toNat + len + v.toInt) % 2 ^ 32)

/-- A string that is an INVPCID in everything but its length, of more than 15 bytes, is refused (`30_encoding.md` rules R94,
R100; decision D17 of the spec). -/
def Obligations.OverlongInvpcidRefused : Prop :=
  ∀ (m : Mode) (csD : Bool) (ps : List Prefix) (rex : Option Rex) (reg : BitVec 3) (mem : MemOperand) (rest : List Byte),
    m = .sixtyFourBit ∨ rex = none →
    ps.count .mandatory66 = 1 → ps.count .addressSize67 ≤ 1 → ps.countP Prefix.isSeg ≤ 1 →
    mem.size = addressSize m csD (addressPrefixPresent ps) → mem.wellFormed = true → 15 < invpcidLength ps rex mem →
    decode m csD (encodeInvpcid ps rex reg mem ++ rest) = .refused .tooLong

/-- The numbers of the general registers, in the order of `10_state.md` rule R21, the number a REX bit and a field of three
bits make (`30_encoding.md` rules R83, R87), and the narrower views of a register. -/
def Obligations.RegisterNumbersNameTheRegisters : Prop :=
  (List.range 16).map (fun n => regOfNumber (BitVec.ofNat 4 n)) =
    [.rax, .rcx, .rdx, .rbx, .rsp, .rbp, .rsi, .rdi, .r8, .r9, .r10, .r11, .r12, .r13, .r14, .r15] ∧
  (∀ field : BitVec 3, (regNumber false field).toNat = field.toNat ∧ (regNumber true field).toNat = 8 + field.toNat) ∧
  ∀ (s : State) (n : BitVec 4), x64 s n = readReg s (regOfNumber n) ∧
    (x32 s n).toNat = (readReg s (regOfNumber n)).toNat % 2 ^ 32 ∧
    (x16 s n).toNat = (readReg s (regOfNumber n)).toNat % 2 ^ 16
end

