-- ==== Sys2Proof/Laws/State.lean ====
section
/-! SUPPORT. One lemma per field per update of `State`: completing an INVPCID, writing a register, choosing the mode of a table
word, placing an instruction. -/

namespace Sys2Proof.Machine

section complete
variable (s : State) (type : Word) (d : Descriptor) (len : Nat)

@[simp] theorem complete_regs : (complete s type d len).regs = s.regs := rfl
@[simp] theorem complete_rip : (complete s type d len).rip = nextRip s len := rfl
@[simp] theorem complete_rflags : (complete s type d len).rflags = s.rflags := rfl
@[simp] theorem complete_mode : (complete s type d len).mode = s.mode := rfl
@[simp] theorem complete_cpl : (complete s type d len).cpl = s.cpl := rfl
@[simp] theorem complete_csD : (complete s type d len).csD = s.csD := rfl
@[simp] theorem complete_cr4Pcide : (complete s type d len).cr4Pcide = s.cr4Pcide := rfl
@[simp] theorem complete_cs : (complete s type d len).cs = s.cs := rfl
@[simp] theorem complete_ss : (complete s type d len).ss = s.ss := rfl
@[simp] theorem complete_ds : (complete s type d len).ds = s.ds := rfl
@[simp] theorem complete_es : (complete s type d len).es = s.es := rfl
@[simp] theorem complete_fs : (complete s type d len).fs = s.fs := rfl
@[simp] theorem complete_gs : (complete s type d len).gs = s.gs := rfl
@[simp] theorem complete_paging : (complete s type d len).paging = s.paging := rfl
@[simp] theorem complete_xlat : (complete s type d len).xlat = s.xlat := rfl
@[simp] theorem complete_tc : (complete s type d len).tc = invalidate s.draw type d s.tc := rfl
@[simp] theorem complete_mem : (complete s type d len).mem = s.mem := rfl
@[simp] theorem complete_nonOrdinary : (complete s type d len).nonOrdinary = s.nonOrdinary := rfl
@[simp] theorem complete_otherWriters : (complete s type d len).otherWriters = s.otherWriters := rfl
@[simp] theorem complete_cfg : (complete s type d len).cfg = s.cfg := rfl
@[simp] theorem complete_draw : (complete s type d len).draw = s.draw + 1 := rfl

end complete

section writeReg
variable (s : State) (r : Reg) (v : Word)

/-- A register write is an update of the registers alone. -/
theorem writeReg_eq : writeReg s r v = { s with regs := (writeReg s r v).regs } := by cases r <;> rfl

@[simp] theorem writeReg_rip : (writeReg s r v).rip = s.rip := by cases r <;> rfl
@[simp] theorem writeReg_rflags : (writeReg s r v).rflags = s.rflags := by cases r <;> rfl
@[simp] theorem writeReg_mode : (writeReg s r v).mode = s.mode := by cases r <;> rfl
@[simp] theorem writeReg_cpl : (writeReg s r v).cpl = s.cpl := by cases r <;> rfl
@[simp] theorem writeReg_csD : (writeReg s r v).csD = s.csD := by cases r <;> rfl
@[simp] theorem writeReg_cr4Pcide : (writeReg s r v).cr4Pcide = s.cr4Pcide := by cases r <;> rfl
@[simp] theorem writeReg_tc : (writeReg s r v).tc = s.tc := by cases r <;> rfl
@[simp] theorem writeReg_mem : (writeReg s r v).mem = s.mem := by cases r <;> rfl
@[simp] theorem writeReg_otherWriters : (writeReg s r v).otherWriters = s.otherWriters := by cases r <;> rfl
@[simp] theorem writeReg_cfg : (writeReg s r v).cfg = s.cfg := by cases r <;> rfl
@[simp] theorem writeReg_draw : (writeReg s r v).draw = s.draw := by cases r <;> rfl

/-- A register reads as written, and every other register as before. -/
theorem readReg_writeReg (r' : Reg) : readReg (writeReg s r v) r' = if r' = r then v else readReg s r' := by
  cases r <;> cases r' <;> rfl

end writeReg

section withFetchWord
variable (s : State) (nbits w : Nat)

@[simp] theorem inTableMode_mode : (s.inTableMode nbits w).mode = tableMode s.mode s.csD nbits w := rfl
@[simp] theorem inTableMode_regs : (s.inTableMode nbits w).regs = s.regs := rfl
@[simp] theorem inTableMode_mem : (s.inTableMode nbits w).mem = s.mem := rfl
@[simp] theorem inTableMode_tc : (s.inTableMode nbits w).tc = s.tc := rfl
@[simp] theorem withFetchWord_mode : (s.withFetchWord nbits w).mode = tableMode s.mode s.csD nbits w := rfl
@[simp] theorem withFetchWord_regs : (s.withFetchWord nbits w).regs = s.regs := rfl
@[simp] theorem withFetchWord_rip : (s.withFetchWord nbits w).rip = s.rip := rfl
@[simp] theorem withFetchWord_tc : (s.withFetchWord nbits w).tc = s.tc := rfl
@[simp] theorem withFetchWord_otherWriters : (s.withFetchWord nbits w).otherWriters = s.otherWriters := rfl
@[simp] theorem withFetchWord_cfg : (s.withFetchWord nbits w).cfg = s.cfg := rfl

end withFetchWord

end Sys2Proof.Machine
end

