-- ==== Sys2Proof/Laws/Memory.lean ====
section
/-! SUPPORT. The laws of memory: a read after a write, and every operation keeps the canonical form. -/

namespace Sys2Proof.Machine

@[simp] theorem read_nil (a : Nat) : Memory.read [] a = unlistedByte := rfl

theorem read_cons (b : Nat) (v : Byte) (m : Memory) (a : Nat) :
    Memory.read ((b, v) :: m) a = if a = b then v else Memory.read m a := rfl

/-- A byte below every listed address reads as an unlisted one. -/
theorem read_below {lo : Nat} {m : Memory} (h : Memory.wfFrom lo m = true) {a : Nat} (ha : a < lo) :
    Memory.read m a = unlistedByte := by
  induction m generalizing lo with
  | nil => rfl
  | cons c m ih =>
    obtain ⟨b, v⟩ := c
    simp only [Memory.wfFrom, Bool.and_eq_true, decide_eq_true_eq] at h
    rw [read_cons, if_neg (by omega)]
    exact ih h.2 (by omega)

/-- Putting a byte in front leaves every other address alone. -/
theorem read_memCons_other {a b : Nat} (h : b ≠ a) (v : Byte) (m : Memory) :
    Memory.read (Memory.cons a v m) b = Memory.read m b := by
  unfold Memory.cons
  split
  · rfl
  · rw [read_cons, if_neg h]

/-- Putting a byte in front of higher addresses: it reads back. -/
theorem read_memCons_same {a : Nat} {m : Memory} (h : Memory.wfFrom (a + 1) m = true) (v : Byte) :
    Memory.read (Memory.cons a v m) a = v := by
  unfold Memory.cons
  split
  · rename_i hv; rw [read_below h (by omega), hv]
  · rw [read_cons, if_pos rfl]

/-- Two numbers below the addresses of a canonical memory. -/
theorem wfFrom_mono {lo lo' : Nat} (hlo : lo' ≤ lo) {m : Memory} (h : Memory.wfFrom lo m = true) :
    Memory.wfFrom lo' m = true := by
  cases m with
  | nil => rfl
  | cons c m =>
    obtain ⟨b, v⟩ := c
    simp only [Memory.wfFrom, Bool.and_eq_true, decide_eq_true_eq] at h ⊢
    exact ⟨⟨by omega, h.1.2⟩, h.2⟩

/-- Putting a byte in front of higher addresses keeps the canonical form. -/
theorem memCons_wfFrom {lo a : Nat} (ha : lo ≤ a) {m : Memory} (h : Memory.wfFrom (a + 1) m = true) (v : Byte) :
    Memory.wfFrom lo (Memory.cons a v m) = true := by
  unfold Memory.cons
  split
  · exact wfFrom_mono (by omega) h
  · rename_i hv; simp [Memory.wfFrom, ha, hv, h]

/-- A write keeps the canonical form above a bound. -/
theorem write_wfFrom {lo a : Nat} (ha : lo ≤ a) {m : Memory} (h : Memory.wfFrom lo m = true) (v : Byte) :
    Memory.wfFrom lo (Memory.write m a v) = true := by
  induction m generalizing lo with
  | nil => exact memCons_wfFrom ha rfl v
  | cons c m ih =>
    obtain ⟨b, w⟩ := c
    have h' := h
    simp only [Memory.wfFrom, Bool.and_eq_true, decide_eq_true_eq] at h'
    unfold Memory.write
    split
    · exact memCons_wfFrom ha (by simp [Memory.wfFrom, h'.1.2, h'.2]; omega) v
    · split
      · rename_i hab; subst hab; exact memCons_wfFrom ha h'.2 v
      · simp only [Memory.wfFrom, Bool.and_eq_true, decide_eq_true_eq]
        exact ⟨⟨h'.1.1, h'.1.2⟩, ih (by omega) h'.2⟩

/-- A write keeps the canonical form. -/
theorem write_wf {m : Memory} (h : Memory.wf m = true) (a : Nat) (v : Byte) : Memory.wf (Memory.write m a v) = true :=
  write_wfFrom (Nat.zero_le a) h v

/-- A write leaves every other address alone. -/
theorem read_write_other {a b : Nat} (hne : b ≠ a) (m : Memory) (v : Byte) :
    Memory.read (Memory.write m a v) b = Memory.read m b := by
  induction m with
  | nil => exact read_memCons_other hne v []
  | cons c m ih =>
    obtain ⟨k, w⟩ := c
    unfold Memory.write
    split
    · exact read_memCons_other hne v _
    · split
      · rename_i hk; rw [read_memCons_other hne, read_cons, if_neg (hk ▸ hne)]
      · rw [read_cons, read_cons, ih]

/-- A byte written reads back, above a bound. -/
theorem read_write_same_from {lo a : Nat} (ha : lo ≤ a) {m : Memory} (h : Memory.wfFrom lo m = true) (v : Byte) :
    Memory.read (Memory.write m a v) a = v := by
  induction m generalizing lo with
  | nil => exact read_memCons_same (m := []) rfl v
  | cons c m ih =>
    obtain ⟨b, w⟩ := c
    have h' := h
    simp only [Memory.wfFrom, Bool.and_eq_true, decide_eq_true_eq] at h'
    unfold Memory.write
    split
    · exact read_memCons_same (by simp [Memory.wfFrom, h'.1.2, h'.2]; omega) v
    · split
      · rename_i hab; subst hab; exact read_memCons_same h'.2 v
      · rename_i h1 h2; rw [read_cons, if_neg h2]; exact ih (by omega) h'.2

/-- A byte written reads back. -/
theorem read_write_same {m : Memory} (h : Memory.wf m = true) (a : Nat) (v : Byte) :
    Memory.read (Memory.write m a v) a = v := read_write_same_from (Nat.zero_le a) h v

/-- Placing bytes keeps the canonical form. -/
theorem placeFrom_wf (s : State) (bs : List Byte) : ∀ (k : Nat) {m : Memory}, Memory.wf m = true →
    Memory.wf (placeFrom s k bs m) = true := by
  induction bs with
  | nil => intro k m h; exact h
  | cons b bs ih =>
    intro k m h
    unfold placeFrom
    split
    · exact ih _ h
    · exact ih _ (write_wf h _ _)

/-- Placing an instruction keeps the canonical form. -/
theorem withFetchWord_wf {s : State} (h : Memory.wf s.mem = true) (nbits w : Nat) :
    Memory.wf (s.withFetchWord nbits w).mem = true := placeFrom_wf _ _ 0 h

/-- The memory of the reset state is canonical. -/
theorem reset_mem_wf : Memory.wf State.reset.mem = true := rfl

end Sys2Proof.Machine
end

