-- ==== Sys2Proof/Laws/Ops.lean ====
section
/-! SUPPORT. For each shared operation of `Machine/Ops.lean` one lemma that says what it can answer; claims cite these and do
not unfold the operations. -/

namespace Sys2Proof.Machine

/-! ### Conditions -/

@[simp] theorem holds_eq_nil (b : Bool) (c : Condition) : holds b c = [] ↔ b = false := by
  cases b <;> simp [holds]

@[simp] theorem mem_holds (b : Bool) (c c' : Condition) : c' ∈ holds b c ↔ b = true ∧ c' = c := by
  cases b <;> simp [holds]

@[simp] theorem typeConditions_eq_nil (type : Word) : typeConditions type = [] ↔ type ≤ 3#64 := by
  simp [typeConditions]

@[simp] theorem valueConditions_eq_nil (s : State) (type : Word) (d : Descriptor) :
    valueConditions s type d = [] ↔
      descReserved d = 0#52 ∧ (s.cr4Pcide = false → namesPcid type d = false) ∧
        (type = 0#64 → canonical s.cfg.laWidthDesc (descLinear d) = true) := by
  cases hp : s.cr4Pcide <;> cases hn : namesPcid type d <;> simp [valueConditions, hp, hn]

@[simp] theorem entryConditions_eq_nil (lock : Bool) (s : State) :
    entryConditions lock s = [] ↔
      lock = false ∧ s.cfg.hasInvpcid = true ∧ s.mode ≠ .virtual8086 ∧ (s.mode ≠ .realAddress → s.cpl = 0) := by
  simp only [entryConditions, recognitionConditions, List.append_eq_nil_iff, holds_eq_nil]
  cases lock <;> cases s.cfg.hasInvpcid <;> cases s.mode <;> simp

/-! ### Raising -/

/-- The reported exception is one of those that hold. -/
theorem chooseFault_mem (s : State) (first : Fault) (more : List Fault) :
    chooseFault s first (first :: more) ∈ first :: more := by
  unfold chooseFault
  split
  · exact List.mem_cons_self
  · split
    · exact List.mem_cons_self
    · have h : Config.faultPick s.draw % (first :: more).length < (first :: more).length :=
        Nat.mod_lt _ (by simp)
      rw [List.getElem?_eq_getElem h]
      exact List.getElem_mem h

/-- With the default order, the first exception is reported. -/
theorem chooseFault_default {s : State} (h : s.cfg.faultOrder = .defaultOrder) (first : Fault) (all : List Fault) :
    chooseFault s first all = first := by simp [chooseFault, h]

/-- `raise` answers a fault: the exception of one of the conditions given. -/
theorem raise_fault (s : State) (first : Condition) (more : List Condition) :
    ∃ c ∈ first :: more, raise s first more = .fault (c.fault s.mode) := by
  have h := chooseFault_mem s (first.fault s.mode) (more.map (Condition.fault s.mode))
  rw [← List.map_cons, List.mem_map] at h
  obtain ⟨c, hc, he⟩ := h
  exact ⟨c, hc, by rw [raise, ← he]⟩

/-- Where every condition given raises the same exception, that one is reported. -/
theorem raise_of_all_same {s : State} {first : Condition} {more : List Condition} {f : Fault}
    (h : ∀ c ∈ first :: more, c.fault s.mode = f) : raise s first more = .fault f := by
  obtain ⟨c, hc, he⟩ := raise_fault s first more
  rw [he, h c hc]

/-- With the default order, the exception of the first condition is reported. -/
theorem raise_default {s : State} (h : s.cfg.faultOrder = .defaultOrder) (first : Condition) (more : List Condition) :
    raise s first more = .fault (first.fault s.mode) := by rw [raise, chooseFault_default h]

@[simp] theorem raise_ne_next (s : State) (c : Condition) (cs : List Condition) (t : State) : raise s c cs ≠ .next t := by
  simp [raise]

@[simp] theorem raise_ne_refused (s : State) (c : Condition) (cs : List Condition) (r : Refusal) :
    raise s c cs ≠ .refused r := by
  simp [raise]

@[simp] theorem raiseIfAny_nil (s : State) (o : Outcome) : raiseIfAny s [] o = o := rfl

@[simp] theorem raiseIfAny_cons (s : State) (c : Condition) (cs : List Condition) (o : Outcome) :
    raiseIfAny s (c :: cs) o = raise s c cs := rfl

/-! ### The execution -/

/-- After the read: completion exactly when no check fails. -/
theorem afterRead_next {s : State} {entry : List Condition} {type : Word} {d : Descriptor} {len : Nat} {t : State} :
    afterRead s entry type d len = .next t ↔
      entry = [] ∧ typeConditions type = [] ∧ valueConditions s type d = [] ∧ disputedPcid s type d = false ∧
        t = complete s type d len := by
  unfold afterRead
  split
  · rename_i h
    simp only [List.append_eq_nil_iff] at h
    cases hd : disputedPcid s type d <;> simp [h, eq_comm]
  · rename_i h
    simp only [raise_ne_next, false_iff]
    rintro ⟨h1, h2, h3, -⟩
    simp [h1, h2, h3] at h

/-- With an operand read: completion exactly when a value was read and no check fails. -/
theorem runOnOperand_next {s : State} {entry : List Condition} {type : Word} {r : ReadResult} {len : Nat} {t : State} :
    runOnOperand s entry type r len = .next t ↔
      entry = [] ∧ typeConditions type = [] ∧ ∃ d, r = .value d ∧ valueConditions s type d = [] ∧
        disputedPcid s type d = false ∧ t = complete s type d len := by
  cases r with
  | value d =>
    simp only [runOnOperand, afterRead_next]
    constructor
    · rintro ⟨h1, h2, h3, h4, h5⟩; exact ⟨h1, h2, d, rfl, h3, h4, h5⟩
    · rintro ⟨h1, h2, d', h, h3, h4, h5⟩; cases h; exact ⟨h1, h2, h3, h4, h5⟩
  | raised c cs => cases entry <;> simp [runOnOperand]
  | refused why => cases entry <;> simp [runOnOperand]

/-- One execution completes exactly when no condition holds, the operand read gives a value and the state is not the
disputed one; then the next state is `complete`. -/
theorem invpcid_next {s : State} {lock : Bool} {type : Word} {size : AddrSize} {r : SegReg} {ea : Word} {len : Nat}
    {t : State} :
    invpcid s lock type size r ea len = .next t ↔
      entryConditions lock s = [] ∧ typeConditions type = [] ∧ ∃ d, memRead s size r ea = .value d ∧
        valueConditions s type d = [] ∧ disputedPcid s type d = false ∧ t = complete s type d len := by
  unfold invpcid
  split
  · rename_i h
    have hne : entryConditions lock s ≠ [] := by simp [h]
    cases he : entryConditions lock s with
    | nil => exact absurd he hne
    | cons c cs => simp
  · exact runOnOperand_next

/-- An instruction in a mode that encodes it is one execution of INVPCID on its decoded parts; elsewhere it is refused. -/
theorem exec_eq (i : Instr) (s : State) :
    exec i s = if i.validIn s.mode then
        invpcid s (decodedIn s i).lock (decodedIn s i).type (decodedIn s i).size (decodedIn s i).seg (decodedIn s i).ea
          (decodedIn s i).len
      else .refused .formNotEncodable := by
  cases i with
  | invpcidR32 ps reg mem =>
    by_cases h : s.mode = .sixtyFourBit <;> simp [exec, execInvpcidR32, Instr.validIn, decodedIn, h]
  | invpcidR64 ps rex reg mem =>
    by_cases h : s.mode = .sixtyFourBit <;> simp [exec, execInvpcidR64, Instr.validIn, decodedIn, h]

/-- The decoded length is the length of the instruction. -/
@[simp] theorem decodedIn_len (s : State) (i : Instr) : (decodedIn s i).len = i.length := by cases i <;> rfl

/-- The decoded LOCK flag is that of the prefixes. -/
@[simp] theorem decodedIn_lock (s : State) (i : Instr) : (decodedIn s i).lock = lockPresent i.prefixes := by
  cases i <;> rfl

/-- WHAT AN INSTRUCTION THAT COMPLETES HAS DONE, and when it completes. -/
theorem exec_next {i : Instr} {s t : State} :
    exec i s = .next t ↔
      ∃ d, ReadsDescriptor i s d ∧ (decodedIn s i).type ≤ 3#64 ∧ valueConditions s (decodedIn s i).type d = [] ∧
        disputedPcid s (decodedIn s i).type d = false ∧ t = complete s (decodedIn s i).type d i.length := by
  rw [exec_eq]
  by_cases hv : i.validIn s.mode = true
  · rw [if_pos hv, invpcid_next]
    simp only [entryConditions_eq_nil, typeConditions_eq_nil, decodedIn_len, decodedIn_lock]
    constructor
    · rintro ⟨⟨h1, h2, h3, h4⟩, h5, d, h6, h7, h8, h9⟩
      exact ⟨d, ⟨⟨hv, h2, h1, h3, h4⟩, h6⟩, h5, h7, h8, h9⟩
    · rintro ⟨d, ⟨⟨-, h2, h1, h3, h4⟩, h6⟩, h5, h7, h8, h9⟩
      exact ⟨⟨h1, h2, h3, h4⟩, h5, d, h6, h7, h8, h9⟩
  · rw [if_neg hv]
    simp only [reduceCtorEq, false_iff]
    rintro ⟨d, h, -⟩
    exact hv h.formOfMode

/-- In virtual-8086 mode an execution raises one of the conditions of step A. -/
theorem exec_virtual8086 {i : Instr} {s : State} (hv : i.validIn s.mode = true) (hm : s.mode = .virtual8086) :
    ∃ c cs, entryConditions (lockPresent i.prefixes) s = c :: cs ∧ exec i s = raise s c cs := by
  rw [exec_eq, if_pos hv, invpcid, if_pos hm, decodedIn_lock]
  have hne : entryConditions (lockPresent i.prefixes) s ≠ [] := by simp [hm]
  cases he : entryConditions (lockPresent i.prefixes) s with
  | nil => exact absurd he hne
  | cons c cs => exact ⟨c, cs, rfl, rfl⟩

/-- In the other modes an execution runs on its operand read. -/
theorem exec_onOperand {i : Instr} {s : State} (hv : i.validIn s.mode = true) (hm : s.mode ≠ .virtual8086) :
    exec i s = runOnOperand s (entryConditions (lockPresent i.prefixes) s) (decodedIn s i).type (operandRead i s)
      i.length := by
  rw [exec_eq, if_pos hv, invpcid, if_neg hm, decodedIn_lock, decodedIn_len]; rfl

/-- WHAT AN EXECUTION CAN DO under the source's invariant: raise one of the conditions that hold, given in the default order;
be refused by its operand read; or complete. -/
theorem exec_cases {i : Instr} {s : State} (hv : i.validIn s.mode = true) (hp : PcideOnlyIn64 s) :
    (∃ c cs, conditionsOf i s = c :: cs ∧ exec i s = raise s c cs) ∨
    (∃ r, s.mode ≠ .virtual8086 ∧ entryConditions (lockPresent i.prefixes) s = [] ∧ operandRead i s = .refused r ∧
      exec i s = .refused r) ∨
    (∃ d, s.mode ≠ .virtual8086 ∧ conditionsOf i s = [] ∧ operandRead i s = .value d ∧
      exec i s = .next (complete s (decodedIn s i).type d i.length)) := by
  by_cases hm : s.mode = .virtual8086
  · obtain ⟨c, cs, h1, h2⟩ := exec_virtual8086 hv hm
    exact .inl ⟨c, cs, by simp [conditionsOf, hm, h1], h2⟩
  · have hc : conditionsOf i s = entryConditions (lockPresent i.prefixes) s ++ (raisedBy (operandRead i s) ++
        typeConditions (decodedIn s i).type ++ valueConditionsOf s (decodedIn s i).type (operandRead i s)) := by
      simp [conditionsOf, hm]
    rw [hc, exec_onOperand hv hm]
    cases hr : operandRead i s with
    | value d =>
      have hdis : disputedPcid s (decodedIn s i).type d = false := by
        cases h : s.cr4Pcide
        · simp [disputedPcid, h]
        · simp [disputedPcid, hp h]
      simp only [raisedBy, List.nil_append, valueConditionsOf, runOnOperand, afterRead, ← List.append_assoc]
      cases entryConditions (lockPresent i.prefixes) s ++ typeConditions (decodedIn s i).type ++
          valueConditions s (decodedIn s i).type d with
      | nil => exact .inr (.inr ⟨d, hm, rfl, rfl, by simp [hdis]⟩)
      | cons c cs => exact .inl ⟨c, cs, rfl, by simp [hdis, holds]⟩
    | raised c cs =>
      left
      simp only [raisedBy, valueConditionsOf, runOnOperand, List.append_nil]
      cases entryConditions (lockPresent i.prefixes) s with
      | nil => exact ⟨c, cs ++ typeConditions (decodedIn s i).type, by simp, by simp⟩
      | cons a as => exact ⟨a, as ++ (c :: cs ++ typeConditions (decodedIn s i).type), by simp, by simp⟩
    | refused r =>
      cases entryConditions (lockPresent i.prefixes) s with
      | nil => exact .inr (.inl ⟨r, hm, rfl, rfl, rfl⟩)
      | cons a as =>
        exact .inl ⟨a, as ++ typeConditions (decodedIn s i).type, by simp [raisedBy, valueConditionsOf], rfl⟩

/-! ### The operand read -/

/-- What the operand read can come to (`20_memory.md` rule R66). -/
theorem memRead_cases (s : State) (size : AddrSize) (r : SegReg) (ea : Word) :
    (2 ^ size.bits ≤ ea.toNat + 15 ∧ memRead s size r ea = .refused .operandPastOffsetSpace) ∨
    (ea.toNat + 15 < 2 ^ size.bits ∧
      ((∃ c cs, addressConditions s r ea = c :: cs ∧ memRead s size r ea = .raised c cs) ∨
       (addressConditions s r ea = [] ∧
        ((pastRealModeLimit s r ea = true ∧ memRead s size r ea = .refused .operandPastRealModeLimit) ∨
         (pastRealModeLimit s r ea = false ∧
          ((∃ c cs, pageConditions s r ea = c :: cs ∧ memRead s size r ea = .raised c cs) ∨
           (pageConditions s r ea = [] ∧
            ((notOrdinary s r ea = true ∧ memRead s size r ea = .refused .operandNotOrdinaryMemory) ∨
             (notOrdinary s r ea = false ∧ memRead s size r ea = .value (descriptorAt s r ea)))))))))) := by
  unfold memRead
  by_cases h : 2 ^ size.bits ≤ ea.toNat + 15
  · rw [if_pos h]; exact .inl ⟨h, rfl⟩
  · right
    refine ⟨Nat.lt_of_not_le h, ?_⟩
    rw [if_neg h]
    cases ha : addressConditions s r ea with
    | cons c cs => exact .inl ⟨c, cs, rfl, rfl⟩
    | nil =>
      right
      refine ⟨rfl, ?_⟩
      cases hl : pastRealModeLimit s r ea with
      | true => exact .inl ⟨rfl, rfl⟩
      | false =>
        right
        refine ⟨rfl, ?_⟩
        cases hp : pageConditions s r ea with
        | cons c cs => exact .inl ⟨c, cs, rfl, rfl⟩
        | nil =>
          right
          refine ⟨rfl, ?_⟩
          cases hn : notOrdinary s r ea with
          | true => exact .inl ⟨rfl, rfl⟩
          | false => exact .inr ⟨rfl, rfl⟩

/-- The value read is the descriptor in memory, and none of the earlier endings applied. -/
theorem memRead_value {s : State} {size : AddrSize} {r : SegReg} {ea : Word} {d : Descriptor} :
    memRead s size r ea = .value d ↔
      ea.toNat + 15 < 2 ^ size.bits ∧ addressConditions s r ea = [] ∧ pastRealModeLimit s r ea = false ∧
        pageConditions s r ea = [] ∧ notOrdinary s r ea = false ∧ d = descriptorAt s r ea := by
  constructor
  · intro h
    rcases memRead_cases s size r ea with ⟨-, h'⟩ | ⟨h0, ⟨c, cs, -, h'⟩ | ⟨h1, ⟨-, h'⟩ | ⟨h2, ⟨c, cs, -, h'⟩ |
      ⟨h3, ⟨-, h'⟩ | ⟨h4, h'⟩⟩⟩⟩⟩
    · rw [h'] at h; exact absurd h (by simp)
    · rw [h'] at h; exact absurd h (by simp)
    · rw [h'] at h; exact absurd h (by simp)
    · rw [h'] at h; exact absurd h (by simp)
    · rw [h'] at h; exact absurd h (by simp)
    · rw [h', ReadResult.value.injEq] at h; exact ⟨h0, h1, h2, h3, h4, h.symm⟩
  · rintro ⟨h0, h1, h2, h3, h4, rfl⟩
    unfold memRead
    rw [if_neg (Nat.not_le.mpr h0), h1]
    simp [h2, h3, h4]

/-! ### The effect -/

/-- What is left in the caches. -/
theorem mem_invalidate {n : Nat} {type : Word} {d : Descriptor} {tc : List CacheEntry} {e : CacheEntry} :
    e ∈ invalidate n type d tc ↔
      e ∈ tc ∧ mustInvalidate type (descPcid d) (descLinear d) e = false ∧ Config.survives n e = true := by
  simp [invalidate]

/-- An invalidation only removes entries. -/
theorem invalidate_sublist (n : Nat) (type : Word) (d : Descriptor) (tc : List CacheEntry) :
    (invalidate n type d tc).Sublist tc := List.filter_sublist

/-- `rIP + len`, where it stays in the instruction-pointer space. -/
theorem nextRip_eq {s : State} {len : Nat} (h : ipValue s + len < 2 ^ ipWidth s) :
    nextRip s len = s.rip + BitVec.ofNat 64 len := if_pos h

/-- With paging off `translate` is the identity. -/
theorem translateAddr_pagingOff {s : State} (h : pagingOff s = true) (acc : Access) (la : Word) :
    translateAddr s acc la = .phys la.toNat := if_pos h

/-- The translation map does not look at the general registers. -/
@[simp] theorem mapLookup_withRegs (s : State) (g : Gprs) (acc : Access) (la : Word) (rs : List XlatRule) :
    mapLookup { s with regs := g } acc la rs = mapLookup s acc la rs := by
  induction rs with
  | nil => rfl
  | cons r rs ih => simp only [mapLookup, ih]; rfl

/-- `translate` does not look at the general registers. -/
@[simp] theorem translateAddr_withRegs (s : State) (g : Gprs) (acc : Access) (la : Word) :
    translateAddr { s with regs := g } acc la = translateAddr s acc la := by
  unfold translateAddr; rw [mapLookup_withRegs]; rfl

/-- A byte no other agent may write reads as memory holds it. -/
theorem readDataByte_memory {s : State} {address : Nat} (h : inRanges s.otherWriters address = false) (i : Nat) :
    readDataByte s i address = s.mem.read address := by simp [readDataByte, h]

/-- A byte another agent may write reads as the oracle answers. -/
theorem readDataByte_oracle {s : State} {address : Nat} (h : inRanges s.otherWriters address = true) (i : Nat) :
    readDataByte s i address = Config.oracleByte s.draw i address := by simp [readDataByte, h]

/-- Given its address, the operand read does not look at the general registers. -/
theorem memRead_withRegs (s : State) (g : Gprs) (size : AddrSize) (r : SegReg) (ea : Word) :
    memRead { s with regs := g } size r ea = memRead s size r ea := by
  have hl : ∀ i, linearAddr { s with regs := g } r ea i = linearAddr s r ea i := fun _ => rfl
  have hb : byteFault { s with regs := g } r ea = byteFault s r ea := by
    funext i; simp only [byteFault, hl, translateAddr_withRegs]
  have hp : operandPhys { s with regs := g } r ea = operandPhys s r ea := by
    funext i; simp only [operandPhys, hl, translateAddr_withRegs]
  have h1 : pageConditions { s with regs := g } r ea = pageConditions s r ea := by simp only [pageConditions, hb]
  have h2 : notOrdinary { s with regs := g } r ea = notOrdinary s r ea := by simp only [notOrdinary, hp]
  have h3 : descriptorAt { s with regs := g } r ea = descriptorAt s r ea := by
    have ho : operandByte { s with regs := g } r ea = operandByte s r ea := by funext i; simp only [operandByte, hp]; rfl
    simp only [descriptorAt, ho]
  have h4 : addressConditions { s with regs := g } r ea = addressConditions s r ea := rfl
  have h5 : pastRealModeLimit { s with regs := g } r ea = pastRealModeLimit s r ea := rfl
  simp only [memRead, h1, h2, h3, h4, h5]

/-- Completing an execution keeps the invariant. -/
theorem complete_inv {s : State} (h : StateInv s) (type : Word) (d : Descriptor) (len : Nat) :
    NoPcidWhenDisabled (complete s type d len) ∧ (complete s type d len).tc.Nodup :=
  ⟨fun hp e he => h.noPcidWhenDisabled hp e ((invalidate_sublist ..).subset he), h.cacheIsSet.sublist (invalidate_sublist ..)⟩

/-- What a step can do: the instruction fetched, or a refusal. -/
theorem step_cases (s : State) :
    (∃ i rest, decode s.mode s.csD (fetchBytes s) = .instr i rest ∧ step s = exec i s) ∨ (∃ r, step s = .refused r) := by
  unfold step
  split
  · rename_i i rest h; exact .inl ⟨i, rest, h, rfl⟩
  · exact .inr ⟨_, rfl⟩
  · exact .inr ⟨_, rfl⟩
  · exact .inr ⟨_, rfl⟩

end Sys2Proof.Machine
end

