-- ==== Sys2Proof/Laws/Decode.lean ====
section
/-! SUPPORT. The small lemmas of the decoder and the encoder, one pair for each part of an instruction: what is written is read
back, and what is read is what was written. -/

namespace Sys2Proof

/-! ### Bytes of fields -/

@[simp] theorem modrmByte_mod (mod : BitVec 2) (reg rm : BitVec 3) : (modrmByte mod reg rm).extractLsb' 6 2 = mod := by
  unfold modrmByte; ext i hi
  simp only [BitVec.getElem_extractLsb', BitVec.getLsbD_setWidth, BitVec.getLsbD_append]
  interval_cases i <;> simp [BitVec.getLsbD_eq_getElem]

@[simp] theorem modrmByte_reg (mod : BitVec 2) (reg rm : BitVec 3) : (modrmByte mod reg rm).extractLsb' 3 3 = reg := by
  unfold modrmByte; ext i hi
  simp only [BitVec.getElem_extractLsb', BitVec.getLsbD_setWidth, BitVec.getLsbD_append]
  interval_cases i <;> simp [BitVec.getLsbD_eq_getElem]

@[simp] theorem modrmByte_rm (mod : BitVec 2) (reg rm : BitVec 3) : (modrmByte mod reg rm).extractLsb' 0 3 = rm := by
  unfold modrmByte; ext i hi
  simp only [BitVec.getElem_extractLsb', BitVec.getLsbD_setWidth, BitVec.getLsbD_append]
  interval_cases i <;> simp [BitVec.getLsbD_eq_getElem]

theorem modrmByte_eta (b : Byte) : modrmByte (b.extractLsb' 6 2) (b.extractLsb' 3 3) (b.extractLsb' 0 3) = b := by
  unfold modrmByte; ext i hi
  simp only [BitVec.getElem_setWidth, BitVec.getLsbD_append, BitVec.getLsbD_extractLsb']
  interval_cases i <;> simp [BitVec.getLsbD_eq_getElem]

/-- A SIB byte has the field places of a ModRM byte. -/
theorem sibByte_eq (scale : BitVec 2) (index base : BitVec 3) : sibByte scale index base = modrmByte scale index base := rfl

theorem bytes16_take (b0 b1 : Byte) : bytes16 ((b1 ++ b0).setWidth 16) = [b0, b1] := by
  simp only [bytes16, List.cons.injEq, and_true]
  constructor <;> ext i hi <;> simp only [BitVec.getElem_extractLsb', BitVec.getLsbD_setWidth, BitVec.getLsbD_append] <;>
  interval_cases i <;> simp [BitVec.getLsbD_eq_getElem]

theorem bytes32_take (b0 b1 b2 b3 : Byte) : bytes32 ((b3 ++ b2 ++ b1 ++ b0).setWidth 32) = [b0, b1, b2, b3] := by
  simp only [bytes32, List.cons.injEq, and_true]
  refine ⟨?_, ?_, ?_, ?_⟩ <;> ext i hi <;>
  simp only [BitVec.getElem_extractLsb', BitVec.getLsbD_setWidth, BitVec.getLsbD_append] <;>
  interval_cases i <;> simp [BitVec.getLsbD_eq_getElem]

@[simp] theorem take16_bytes16 (v : BitVec 16) (rest : List Byte) : take16 (bytes16 v ++ rest) = some (v, rest) := by
  simp only [bytes16, List.cons_append, List.nil_append, take16, Option.some.injEq, Prod.mk.injEq, and_true]
  ext i hi
  simp only [BitVec.getElem_setWidth, BitVec.getLsbD_append, BitVec.getLsbD_extractLsb']
  interval_cases i <;> simp [BitVec.getLsbD_eq_getElem]

@[simp] theorem take32_bytes32 (v : BitVec 32) (rest : List Byte) : take32 (bytes32 v ++ rest) = some (v, rest) := by
  simp only [bytes32, List.cons_append, List.nil_append, take32, Option.some.injEq, Prod.mk.injEq, and_true]
  ext i hi
  simp only [BitVec.getElem_setWidth, BitVec.getLsbD_append, BitVec.getLsbD_extractLsb']
  interval_cases i <;> simp [BitVec.getLsbD_eq_getElem]

theorem take8_some {bs : List Byte} {v : BitVec 8} {rest : List Byte} : take8 bs = some (v, rest) ↔ bs = v :: rest := by
  cases bs <;> simp [take8]

theorem take16_some {bs : List Byte} {v : BitVec 16} {rest : List Byte} :
    take16 bs = some (v, rest) ↔ bs = bytes16 v ++ rest := by
  constructor
  · intro h
    match bs, h with
    | b0 :: b1 :: bs, h =>
      simp only [take16, Option.some.injEq, Prod.mk.injEq] at h
      obtain ⟨rfl, rfl⟩ := h
      rw [bytes16_take]; rfl
  · rintro rfl; simp

theorem take32_some {bs : List Byte} {v : BitVec 32} {rest : List Byte} :
    take32 bs = some (v, rest) ↔ bs = bytes32 v ++ rest := by
  constructor
  · intro h
    match bs, h with
    | b0 :: b1 :: b2 :: b3 :: bs, h =>
      simp only [take32, Option.some.injEq, Prod.mk.injEq] at h
      obtain ⟨rfl, rfl⟩ := h
      rw [bytes32_take]; rfl
  · rintro rfl; simp

/-! ### Prefixes -/

@[simp] theorem prefixOfByte_byte (p : Prefix) : prefixOfByte p.byte = some p := by
  cases p with
  | seg r => cases r <;> rfl
  | _ => rfl

theorem byte_of_prefixOfByte {b : Byte} {p : Prefix} (h : prefixOfByte b = some p) : p.byte = b := by
  unfold prefixOfByte at h
  repeat' split at h
  all_goals first
    | (rename_i hb; cases h; exact hb.symm)
    | cases h

/-- The head of a string is not a legacy prefix. -/
abbrev NoPrefixHead (bs : List Byte) : Prop := ∀ b ∈ bs.head?, prefixOfByte b = none

theorem takePrefixes_append (ps : List Prefix) {bs : List Byte} (h : NoPrefixHead bs) :
    takePrefixes (ps.map Prefix.byte ++ bs) = (ps, bs) := by
  induction ps with
  | nil =>
    cases bs with
    | nil => rfl
    | cons b bs => simp only [List.map_nil, List.nil_append, takePrefixes, h b (by simp)]
  | cons p ps ih => simp only [List.map_cons, List.cons_append, takePrefixes, prefixOfByte_byte, ih]

theorem takePrefixes_spec (bs : List Byte) :
    bs = (takePrefixes bs).1.map Prefix.byte ++ (takePrefixes bs).2 ∧ NoPrefixHead (takePrefixes bs).2 := by
  induction bs with
  | nil => exact ⟨rfl, by simp [takePrefixes, NoPrefixHead]⟩
  | cons b bs ih =>
    simp only [takePrefixes]
    split
    · rename_i p hp
      exact ⟨by simp only [List.map_cons, List.cons_append, byte_of_prefixOfByte hp]; rw [← ih.1], ih.2⟩
    · rename_i hp; exact ⟨rfl, by simpa [NoPrefixHead] using hp⟩

/-! ### REX -/

@[simp] theorem rexOfByte_byte (x : Rex) : rexOfByte x.byte = some x := by
  obtain ⟨w, r, x, b⟩ := x
  revert w r x b; decide

theorem byte_of_rexOfByte : ∀ {b : Byte} {x : Rex}, rexOfByte b = some x → x.byte = b := by
  have h : ∀ b : Byte, ∀ x ∈ rexOfByte b, x.byte = b := by decide
  exact fun {b x} hb => h b x hb

/-- A REX byte is no legacy prefix. -/
theorem rexByte_noPrefix (x : Rex) : prefixOfByte x.byte = none := by
  obtain ⟨w, r, x, b⟩ := x
  revert w r x b; decide

/-- The first opcode byte is no legacy prefix and no REX. -/
theorem rexOfByte_0F : rexOfByte 0x0F#8 = none := by decide

/-! ### ModRM, SIB and displacement -/

@[simp] theorem base16OfRm_rm (b : Base16) : base16OfRm b.rm = b := by cases b <;> rfl

@[simp] theorem rm_base16OfRm (rm : BitVec 3) : (base16OfRm rm).rm = rm := by revert rm; decide

@[simp] theorem dispMod_ne_three {w : Nat} (d : Disp w) : d.mod ≠ 3#2 := by cases d <;> simp [Disp.mod]

@[simp] theorem takeDisp16_encode (d : Disp 16) (rest : List Byte) :
    takeDisp16 d.mod (d.encode16 ++ rest) = some (d, rest) := by
  cases d <;> simp [takeDisp16, Disp.mod, Disp.encode16, take8]

@[simp] theorem takeDisp32_encode (d : Disp 32) (rest : List Byte) :
    takeDisp32 d.mod (d.encode32 ++ rest) = some (d, rest) := by
  cases d <;> simp [takeDisp32, Disp.mod, Disp.encode32, take8]

theorem takeDisp16_some {mod : BitVec 2} {bs : List Byte} {d : Disp 16} {rest : List Byte} (hm : mod ≠ 3#2)
    (h : takeDisp16 mod bs = some (d, rest)) : mod = d.mod ∧ bs = d.encode16 ++ rest := by
  unfold takeDisp16 at h
  split at h
  · rename_i hmod
    simp only [Option.map_eq_some_iff, Prod.exists, Prod.mk.injEq] at h
    obtain ⟨v, r, ht, rfl, rfl⟩ := h
    exact ⟨hmod, take8_some.mp ht⟩
  · split at h
    · rename_i hmod
      simp only [Option.map_eq_some_iff, Prod.exists, Prod.mk.injEq] at h
      obtain ⟨v, r, ht, rfl, rfl⟩ := h
      exact ⟨hmod, take16_some.mp ht⟩
    · rename_i h1 h2
      simp only [Option.some.injEq, Prod.mk.injEq] at h
      obtain ⟨rfl, rfl⟩ := h
      exact ⟨by revert mod; decide, rfl⟩

theorem takeDisp32_some {mod : BitVec 2} {bs : List Byte} {d : Disp 32} {rest : List Byte} (hm : mod ≠ 3#2)
    (h : takeDisp32 mod bs = some (d, rest)) : mod = d.mod ∧ bs = d.encode32 ++ rest := by
  unfold takeDisp32 at h
  split at h
  · rename_i hmod
    simp only [Option.map_eq_some_iff, Prod.exists, Prod.mk.injEq] at h
    obtain ⟨v, r, ht, rfl, rfl⟩ := h
    exact ⟨hmod, take8_some.mp ht⟩
  · split at h
    · rename_i hmod
      simp only [Option.map_eq_some_iff, Prod.exists, Prod.mk.injEq] at h
      obtain ⟨v, r, ht, rfl, rfl⟩ := h
      exact ⟨hmod, take32_some.mp ht⟩
    · rename_i h1 h2
      simp only [Option.some.injEq, Prod.mk.injEq] at h
      obtain ⟨rfl, rfl⟩ := h
      exact ⟨by revert mod; decide, rfl⟩

/-! ### Lengths -/

@[simp] theorem encode16_length (d : Disp 16) : d.encode16.length = d.bytes := by cases d <;> rfl

@[simp] theorem encode32_length (d : Disp 32) : d.encode32.length = d.bytes := by cases d <;> rfl

@[simp] theorem memEncode_length (reg : BitVec 3) (mem : MemOperand) : (mem.encode reg).length = 1 + mem.bytes := by
  cases mem with
  | addr16 ea =>
    cases ea with
    | based b d => simp [MemOperand.encode, MemOperand.bytes, Ea16.encode, Ea16.bytes]; omega
    | absolute v => rfl
  | addr32 ea => cases ea <;> simp [MemOperand.encode, MemOperand.bytes, EaLong.encode, EaLong.bytes, bytes32] <;> omega
  | addr64 ea => cases ea <;> simp [MemOperand.encode, MemOperand.bytes, EaLong.encode, EaLong.bytes, bytes32] <;> omega

@[simp] theorem encodeInvpcid_length (ps : List Prefix) (rex : Option Rex) (reg : BitVec 3) (mem : MemOperand) :
    (encodeInvpcid ps rex reg mem).length = invpcidLength ps rex mem := by
  cases rex <;> simp [encodeInvpcid, encodeRex, opcodeBytes, invpcidLength] <;> omega

end Sys2Proof
end

