-- ==== Sys2Proof/Laws/PerInstr.lean ====
section
/-! SUPPORT. Statements about every instruction as syntax, one lemma per constructor. -/

namespace Sys2Proof.Laws

/-- The bytes of an instruction are as many as its length (`30_encoding.md` rule R94). -/
def EncodedLength.Statement (i : Instr) : Prop := (encode i).length = i.length

theorem EncodedLength.invpcidR32 (ps : List Prefix) (reg : BitVec 3) (mem : MemOperand) :
    EncodedLength.Statement (.invpcidR32 ps reg mem) := by
  simp [EncodedLength.Statement, encode, Instr.length]

theorem EncodedLength.invpcidR64 (ps : List Prefix) (rex : Option Rex) (reg : BitVec 3) (mem : MemOperand) :
    EncodedLength.Statement (.invpcidR64 ps rex reg mem) := by
  simp [EncodedLength.Statement, encode, Instr.length]

end Sys2Proof.Laws
end

