-- ==== Sys2Proof/Tests/Slice0.lean ====
section
/-! SUPPORT. The model's own tests: the well-formedness smoke test, words written out from the encoding tables
(`spec/95_test_vectors.md` group V1), a few single steps (groups V3 to V5), and for every obligation with hypotheses a concrete
state that meets them. Expected results are the spec's derived vectors or hand calculation from its rules. -/

namespace Sys2Proof.Tests
open Sys2Proof Sys2Proof.Machine

/-! ### Helpers -/

def isNext : Outcome → Bool
  | .next _ => true
  | _ => false

def isFault (f : Fault) : Outcome → Bool
  | .fault g => decide (g = f)
  | _ => false

def isRefused (r : Refusal) : Outcome → Bool
  | .refused q => decide (q = r)
  | _ => false

/-- The caches after a completed step. -/
def tcAfter : Outcome → Option (List CacheEntry)
  | .next t => some t.tc
  | _ => none

def ripAfter : Outcome → Option Word
  | .next t => some t.rip
  | _ => none

/-- Entries of group V5. -/
def e1 : CacheEntry := ⟨.tlb, 5#12, false, [⟨0x7FFF12345000, 0x7FFF12345FFF⟩], 0⟩
def e4 : CacheEntry := ⟨.tlb, 5#12, true, [⟨0xFFFF800000000000, 0xFFFF800000000FFF⟩], 0⟩
def e5 : CacheEntry := ⟨.psc, 5#12, false, [⟨0x7FFF12200000, 0x7FFF123FFFFF⟩], 0⟩
def e6 : CacheEntry := ⟨.tlb, 0#12, false, [⟨0x1000, 0x1FFF⟩], 0⟩

/-- Descriptors in memory: V2.2 at 7000H, bit 12 set (V2.7) at 8000H, V2.6 (PCID 001, not canonical) at 9000H. -/
def descriptors : Memory :=
  [(0x7000, 0x05#8), (0x7009, 0x50#8), (0x700A, 0x34#8), (0x700B, 0x12#8), (0x700C, 0xFF#8), (0x700D, 0x7F#8),
   (0x8001, 0x10#8),
   (0x9000, 0x01#8), (0x9008, 0xEF#8), (0x9009, 0xCD#8), (0x900A, 0xAB#8), (0x900B, 0x89#8), (0x900C, 0x67#8),
   (0x900D, 0x45#8), (0x900E, 0x23#8), (0x900F, 0x01#8)]

/-- Types 0 to 4 in RAX, RCX, RDX, RBP, RSI; the operand's address in RBX. -/
def typeRegs (rbx : Word) : Gprs :=
  { Gprs.atReset with rax := 0, rcx := 1, rdx := 2, rbp := 3, rsi := 4, rbx := rbx }

/-- 64-bit mode, CPL 0, CR4.PCIDE = 1, identity translation. -/
def s64 (rbx : Word) : State :=
  { State.reset with
    mode := .sixtyFourBit, cr4Pcide := true, rip := 0x401000#64, regs := typeRegs rbx, mem := descriptors
    tc := [e1, e4, e5, e6] }

/-- A flat segment for 32-bit modes. -/
def flat : Segment := { Segment.atReset 0#64 with inLimit := [⟨0, 0xFFFFFFFF⟩] }

/-- Protected mode, CS.D = 1, CPL 0, CR4.PCIDE = 0, paging off. -/
def s32 (rbx : Word) : State :=
  { State.reset with
    mode := .protectedMode, csD := true, rip := 0x1000#64, regs := typeRegs rbx, mem := descriptors, tc := [e6]
    cs := flat, ss := flat, ds := flat, es := flat, fs := flat, gs := flat }

/-- Real-address mode with a flat register set. -/
def sReal (rbx : Word) : State := { State.reset with regs := typeRegs rbx, mem := descriptors, tc := [e6] }

/-- `INVPCID reg, [RBX]` in 64-bit mode. -/
def i64 (reg : BitVec 3) : Instr := .invpcidR64 [.mandatory66] none reg (.addr64 (.based 3#3 .none))

/-- `INVPCID reg, [EBX]` with 32-bit addressing. -/
def i32 (reg : BitVec 3) : Instr := .invpcidR32 [.mandatory66] reg (.addr32 (.based 3#3 .none))

/-- `INVPCID reg, SS:[EBX]`. -/
def i32ss (reg : BitVec 3) : Instr := .invpcidR32 [.seg .ss, .mandatory66] reg (.addr32 (.based 3#3 .none))

/-- `INVPCID reg, [BX]` with 16-bit addressing. -/
def i16 (reg : BitVec 3) : Instr := .invpcidR32 [.mandatory66] reg (.addr16 (.based .bx .none))

/-- `LOCK INVPCID RDX, [RBX]`. -/
def i64lock : Instr := .invpcidR64 [.lock, .mandatory66] none 2#3 (.addr64 (.based 3#3 .none))

/-- The descriptor V2.2. -/
def d22 : Descriptor := 0x00007FFF123450000000000000000005#128

/-! ### Well-formedness: one ill-formed term for each check -/

theorem test_wf_ok : (i64 0#3).wellFormed .sixtyFourBit false = true := by decide
theorem test_wf_form_of_other_mode : (i64 0#3).wellFormed .protectedMode true = false := by decide
theorem test_wf_r32_in_64 : (Instr.invpcidR32 [.mandatory66] 0#3 (.addr64 (.based 3#3 .none))).wellFormed .sixtyFourBit false = false := by
  decide
theorem test_wf_no_66 : (Instr.invpcidR64 [] none 0#3 (.addr64 (.based 3#3 .none))).wellFormed .sixtyFourBit false = false := by
  decide
theorem test_wf_two_66 : (Instr.invpcidR64 [.mandatory66, .mandatory66] none 0#3 (.addr64 (.based 3#3 .none))).wellFormed
    .sixtyFourBit false = false := by decide
theorem test_wf_two_67 : (Instr.invpcidR64 [.addressSize67, .addressSize67, .mandatory66] none 0#3
    (.addr32 (.based 3#3 .none))).wellFormed .sixtyFourBit false = false := by decide
theorem test_wf_two_segments : (Instr.invpcidR64 [.seg .fs, .seg .gs, .mandatory66] none 0#3
    (.addr64 (.based 3#3 .none))).wellFormed .sixtyFourBit false = false := by decide
theorem test_wf_address_size : (Instr.invpcidR64 [.mandatory66] none 0#3 (.addr32 (.based 3#3 .none))).wellFormed
    .sixtyFourBit false = false := by decide
theorem test_wf_rsp_needs_sib : (Instr.invpcidR64 [.mandatory66] none 0#3 (.addr64 (.based 4#3 .none))).wellFormed
    .sixtyFourBit false = false := by decide
theorem test_wf_rbp_needs_disp : (Instr.invpcidR64 [.mandatory66] none 0#3 (.addr64 (.based 5#3 .none))).wellFormed
    .sixtyFourBit false = false := by decide
theorem test_wf_sib_base_needs_disp : (Instr.invpcidR64 [.mandatory66] none 0#3 (.addr64 (.sib 0#2 4#3 5#3 .none))).wellFormed
    .sixtyFourBit false = false := by decide
theorem test_wf_bp_needs_disp : (Instr.invpcidR32 [.mandatory66] 0#3 (.addr16 (.based .bp .none))).wellFormed
    .realAddress false = false := by decide
theorem test_wf_too_long : (Instr.invpcidR64 (.mandatory66 :: List.replicate 11 .lock) none 0#3
    (.addr64 (.based 1#3 .none))).wellFormed .sixtyFourBit false = false := by decide

/-! ### Decoding (group V1, `30_encoding.md` rule R101) -/

theorem test_V1_3 : decode .sixtyFourBit false [0x66#8, 0x0F#8, 0x38#8, 0x82#8, 0x17#8]
    = .instr (.invpcidR64 [.mandatory66] none 2#3 (.addr64 (.based 7#3 .none))) [] := by decide
theorem test_V1_5_rexW : decode .sixtyFourBit false [0x66#8, 0x48#8, 0x0F#8, 0x38#8, 0x82#8, 0x01#8]
    = .instr (.invpcidR64 [.mandatory66] (some ⟨true, false, false, false⟩) 0#3 (.addr64 (.based 1#3 .none))) [] := by decide
theorem test_V1_9_sib : decode .sixtyFourBit false [0x66#8, 0x0F#8, 0x38#8, 0x82#8, 0x4C#8, 0xFE#8, 0x20#8]
    = .instr (.invpcidR64 [.mandatory66] none 1#3 (.addr64 (.sib 3#2 7#3 6#3 (.short 0x20#8)))) [] := by decide
theorem test_V1_13_disp : decode .sixtyFourBit false
      [0x66#8, 0x0F#8, 0x38#8, 0x82#8, 0x04#8, 0x25#8, 0x00#8, 0x00#8, 0x00#8, 0x80#8]
    = .instr (.invpcidR64 [.mandatory66] none 0#3 (.addr64 (.sibNoBase 0#2 4#3 0x80000000#32))) [] := by decide
theorem test_V1_14_addr32 : decode .sixtyFourBit false [0x67#8, 0x66#8, 0x0F#8, 0x38#8, 0x82#8, 0x01#8]
    = .instr (.invpcidR64 [.addressSize67, .mandatory66] none 0#3 (.addr32 (.based 1#3 .none))) [] := by decide
theorem test_V1_15_gs : decode .sixtyFourBit false [0x65#8, 0x66#8, 0x0F#8, 0x38#8, 0x82#8, 0x03#8]
    = .instr (.invpcidR64 [.seg .gs, .mandatory66] none 0#3 (.addr64 (.based 3#3 .none))) [] := by decide
theorem test_V1_23_d16 : decode .protectedMode false [0x66#8, 0x0F#8, 0x38#8, 0x82#8, 0x06#8, 0x34#8, 0x12#8]
    = .instr (.invpcidR32 [.mandatory66] 0#3 (.addr16 (.absolute 0x1234#16))) [] := by decide
theorem test_V1_26_bp : decode .realAddress false [0x66#8, 0x0F#8, 0x38#8, 0x82#8, 0x46#8, 0x00#8]
    = .instr (.invpcidR32 [.mandatory66] 0#3 (.addr16 (.based .bp (.short 0#8)))) [] := by decide
theorem test_V1_28_notInvpcid : decode .protectedMode true [0x66#8, 0x45#8, 0x0F#8, 0x38#8, 0x82#8, 0x01#8] = .notInvpcid := by
  decide
theorem test_V1_31_two_66 : decode .sixtyFourBit false [0x66#8, 0x66#8, 0x0F#8, 0x38#8, 0x82#8, 0x01#8] = .refused .prefixes := by
  decide
theorem test_V1_33_rex_first : decode .sixtyFourBit false [0x45#8, 0x66#8, 0x0F#8, 0x38#8, 0x82#8, 0x01#8] = .notInvpcid := by
  decide
theorem test_V1_37_too_long : decode .sixtyFourBit false
    (List.replicate 11 0xF0#8 ++ [0x66#8, 0x0F#8, 0x38#8, 0x82#8, 0x01#8]) = .refused .tooLong := by decide

/-- Decoded parts of V1.7 (SS:[RBP + 10H]), V1.10 (R15, DS:[R12]) and V1.16 (CS override ignored in 64-bit mode). -/
theorem test_V1_7_ss : operandSeg .sixtyFourBit [.mandatory66] none (.addr64 (.based 5#3 (.short 0x10#8))) = .ss := by decide
theorem test_V1_10_r12 : operandSeg .sixtyFourBit [.mandatory66] (some ⟨false, true, false, true⟩)
    (.addr64 (.sib 0#2 4#3 4#3 .none)) = .ds ∧ regOfNumber (regNumber true 7#3) = .r15 := by decide
theorem test_V1_16_cs_ignored : operandSeg .sixtyFourBit [.seg .cs, .mandatory66] none (.addr64 (.based 3#3 .none)) = .ds := by
  decide
theorem test_V1_8_rip_relative : (decodedIn { s64 0 with rip := 0x1000#64 }
    (.invpcidR64 [.mandatory66] none 1#3 (.addr64 (.disp32 0x100#32)))).ea = 0x1109#64 := by decide
theorem test_V1_13_address : (decodedIn (s64 0)
    (.invpcidR64 [.mandatory66] none 0#3 (.addr64 (.sibNoBase 0#2 4#3 0x80000000#32)))).ea = 0xFFFFFFFF80000000#64 := by decide

/-! ### The table word and the first step after reset -/

theorem test_table_word : decodeTableWord 40 0x660F388207 = some (i16 0#3) := by decide
theorem test_table_word_byte_order : decodeTableWord 40 0x0782380F66 = some (i16 0#3) := by decide
theorem test_first_step : ripAfter (step (State.reset.withFetchWord 40 0x660F388207)) = some 0xFFF5#64 := by decide

/-! ### Canonical form (group V6) and single steps (groups V3 to V5) -/

theorem test_V6_48 : canonical 48 0x00007FFFFFFFFFFF#64 = true ∧ canonical 48 0x0000800000000000#64 = false ∧
    canonical 48 0xFFFF7FFFFFFFFFFF#64 = false ∧ canonical 48 0xFFFF800000000000#64 = true := by decide
theorem test_V6_57 : canonical 57 0x00FFFFFFFFFFFFFF#64 = true ∧ canonical 57 0x0100000000000000#64 = false ∧
    canonical 57 0xFEFFFFFFFFFFFFFF#64 = false ∧ canonical 57 0xFF00000000000000#64 = true := by decide

/-- V5.13: type 2 leaves nothing. -/
theorem test_V5_13 : tcAfter (exec (i64 2#3) (s64 0)) = some [] := by decide
/-- V5.1: type 0 removes e1 and the paging-structure-cache entry e5, whatever the free choice does with the others. -/
theorem test_V5_1 : ∀ t, exec (i64 0#3) (s64 0x7000) = .next t → e1 ∉ t.tc ∧ e5 ∉ t.tc := by
  intro t h
  obtain ⟨d, hd, -, -, -, rfl⟩ := exec_next.mp h
  have hd' : d = d22 := by
    have h1 := hd.readsValue
    have h2 : operandRead (i64 0#3) (s64 0x7000) = .value d22 := by decide
    rw [h2] at h1; cases h1; rfl
  subst hd'
  have m1 : mustInvalidate (decodedIn (s64 0x7000) (i64 0#3)).type (descPcid d22) (descLinear d22) e1 = true := by decide
  have m5 : mustInvalidate (decodedIn (s64 0x7000) (i64 0#3)).type (descPcid d22) (descLinear d22) e5 = true := by decide
  constructor <;> intro hm <;> have := (mem_invalidate.mp hm).2.1
  · rw [m1] at this; cases this
  · rw [m5] at this; cases this
/-- V5.31: compatibility mode, only the low half of the register is the type. -/
theorem test_V5_31 : tcAfter (exec (i32 0#3) { s32 0 with
    mode := .compatibility, regs := { typeRegs 0 with rax := 0x0000000100000002#64 } }) = some [] := by decide
/-- V5.19: in 64-bit mode the upper half counts. -/
theorem test_V5_19 : isFault (.gp (some 0)) (exec (i64 0#3) { s64 0 with
    regs := { typeRegs 0 with rax := 0x0000000100000000#64 } }) = true := by decide
/-- V4.17: real-address mode, the operand would pass offset FFFFH. -/
theorem test_V4_17 : isRefused .operandPastOffsetSpace (exec (i16 2#3) (sReal 0xFFF8)) = true := by decide
/-- V3.10, V3.11 in the default order. -/
theorem test_V3_11_default : isFault .ud (exec i64lock { s64 0 with
    cpl := 3, cfg := { resetConfig with faultOrder := .defaultOrder } }) = true := by decide

/-! ### Witnesses: for each obligation a state and operands that meet its hypotheses -/

theorem witness_DecodeOfEncodeIsTheInstruction :
    (Instr.invpcidR64 (.mandatory66 :: List.replicate 9 .lock) (some ⟨false, true, true, true⟩) 7#3
      (.addr64 (.based 1#3 .none))).wellFormed .sixtyFourBit false = true := by decide

/-- For DecodedStringIsTheEncoding, DecodedLengthIsFiveToFifteen and ModeAloneSelectsTheForm: both forms, at the lengths
5 and 15. -/
theorem witness_DecodedStrings :
    decode .sixtyFourBit false (List.replicate 10 0xF0#8 ++ [0x66#8, 0x0F#8, 0x38#8, 0x82#8, 0x01#8])
      = .instr (.invpcidR64 (List.replicate 10 .lock ++ [.mandatory66]) none 0#3 (.addr64 (.based 1#3 .none))) [] ∧
    decode .compatibility true [0x66#8, 0x0F#8, 0x38#8, 0x82#8, 0x01#8, 0x90#8]
      = .instr (.invpcidR32 [.mandatory66] 0#3 (.addr32 (.based 1#3 .none))) [0x90#8] := by decide

theorem witness_BadPrefixesAndRegisterOperandRefused :
    List.count Prefix.mandatory66 [.lock] = 0 ∧ List.count Prefix.mandatory66 [.mandatory66, .mandatory66] > 1 ∧
    (List.count Prefix.mandatory66 [.mandatory66, .seg .fs, .seg .gs] = 1 ∧
      List.countP Prefix.isSeg [.mandatory66, .seg .fs, .seg .gs] > 1) ∧
    (List.count Prefix.mandatory66 [.mandatory66] = 1 ∧ List.count Prefix.addressSize67 [.mandatory66] ≤ 1 ∧
      List.countP Prefix.isSeg [.mandatory66] ≤ 1 ∧ (0xC1#8).extractLsb' 6 2 = 3#2) ∧
    decode .sixtyFourBit false ([Prefix.mandatory66].map Prefix.byte ++ (encodeRex (some ⟨false, true, false, true⟩) ++
      (opcodeBytes ++ [0xC1#8]))) = .refused .registerOperand := by decide

/-- Sixteen bytes, with and without REX. -/
theorem witness_OverlongInvpcidRefused :
    (Prefix.mandatory66 :: List.replicate 10 .lock).count .mandatory66 = 1 ∧
    (Prefix.mandatory66 :: List.replicate 10 .lock).count .addressSize67 ≤ 1 ∧
    (Prefix.mandatory66 :: List.replicate 10 .lock).countP Prefix.isSeg ≤ 1 ∧
    (MemOperand.addr64 (.based 1#3 .none)).size
      = addressSize .sixtyFourBit false (addressPrefixPresent (.mandatory66 :: List.replicate 10 .lock)) ∧
    (MemOperand.addr64 (.based 1#3 .none)).wellFormed = true ∧
    invpcidLength (.mandatory66 :: List.replicate 10 .lock) (some ⟨false, false, false, false⟩) (.addr64 (.based 1#3 .none)) = 16 ∧
    invpcidLength (.mandatory66 :: List.replicate 11 .lock) none (.addr16 (.based .bx .none)) = 16 := by decide

theorem witness_StepRunsTheDecodedInstruction :
    decode .realAddress false (fetchBytes (State.reset.withFetchWord 40 0x660F388207))
      = .instr (i16 0#3) (List.replicate 10 0#8) := by decide

theorem witness_StepRunsAnInstructionStoredAtRip :
    (i16 0#3).wellFormed .realAddress false = true ∧
    (∀ k < (i16 0#3).length, ∃ p, fetchPhys (State.reset.withFetchWord 40 0x660F388207) k = some p ∧
      (encode (i16 0#3))[k]? = some ((State.reset.withFetchWord 40 0x660F388207).mem.read p)) := by
  have h : (List.range 5).map (fetchPhys (State.reset.withFetchWord 40 0x660F388207)) =
      (List.range 5).map (fun k => some (0xFFFFFFF0 + k)) := by decide
  refine ⟨by decide, fun k hk => ?_⟩
  have hk' : k < 5 := hk
  refine ⟨0xFFFFFFF0 + k, ?_, ?_⟩
  · simpa [hk'] using congrArg (fun l => l[k]?) h
  · interval_cases k <;> decide

/-- Five states: zeros, a second `66`, mod = 11, fifteen LOCK prefixes, and an instruction cut off by the code-segment
limit. -/
theorem witness_StepRefusesWhatDoesNotDecode :
    decode .realAddress false (fetchBytes State.reset) = .notInvpcid ∧
    decode .realAddress false (fetchBytes { State.reset with
      mem := [(0xFFFFFFF0, 0x66#8), (0xFFFFFFF1, 0x66#8), (0xFFFFFFF2, 0x0F#8), (0xFFFFFFF3, 0x38#8),
        (0xFFFFFFF4, 0x82#8)] }) = .refused .prefixes ∧
    decode .realAddress false (fetchBytes { State.reset with
      mem := [(0xFFFFFFF0, 0x66#8), (0xFFFFFFF1, 0x0F#8), (0xFFFFFFF2, 0x38#8), (0xFFFFFFF3, 0x82#8),
        (0xFFFFFFF4, 0xC1#8)] }) = .refused .registerOperand ∧
    (let s := { State.reset with mem := (List.range 15).map fun k => (0xFFFFFFF0 + k, 0xF0#8) };
      decode .realAddress false (fetchBytes s) = .incomplete ∧ (fetchBytes s).length = 15) ∧
    (let s := { State.reset with rip := 0xFFFF#64, mem := [(0xFFFFFFFF, 0x66#8)] };
      decode .realAddress false (fetchBytes s) = .incomplete ∧ (fetchBytes s).length < 15) := by decide

/-- `INVPCID reg, [RBX]` reads V2.2 in 64-bit mode. -/
theorem reads64 : ∀ reg : BitVec 3, ReadsDescriptor (i64 reg) (s64 0x7000) d22 := fun reg =>
  ⟨⟨rfl, rfl, rfl, by decide, fun _ => rfl⟩, show operandRead (i64 0#3) (s64 0x7000) = .value d22 by decide⟩

/-- `INVPCID reg, [EBX]` reads the all-zero descriptor in protected mode. -/
theorem reads32 : ∀ reg : BitVec 3, ReadsDescriptor (i32 reg) (s32 0) 0#128 := fun reg =>
  ⟨⟨rfl, rfl, rfl, by decide, fun _ => rfl⟩, show operandRead (i32 0#3) (s32 0) = .value 0#128 by decide⟩

theorem witness_ValidR32InvpcidCompletes :
    ReadsDescriptor (i32 0#3) (s32 0) 0#128 ∧ typeR32 (s32 0) 0#3 ≤ 3#64 ∧ descReserved 0#128 = 0#52 ∧
    PcidAllowed (s32 0) 0#128 ∧ canonical 48 (descLinear 0#128) = true ∧ isNext (exec (i32 0#3) (s32 0)) = true :=
  ⟨reads32 0#3, by decide⟩

theorem witness_ValidR64InvpcidCompletes :
    ReadsDescriptor (i64 0#3) (s64 0x7000) d22 ∧ typeR64 (s64 0x7000) none 0#3 ≤ 3#64 ∧ descReserved d22 = 0#52 ∧
    PcidAllowed (s64 0x7000) d22 ∧ canonical 48 (descLinear d22) = true ∧ isNext (exec (i64 0#3) (s64 0x7000)) = true :=
  ⟨reads64 0#3, by decide⟩

theorem witness_TypeZeroInvalidatesTheAddress :
    ReadsDescriptor (i64 0#3) (s64 0x7000) d22 ∧ (decodedIn (s64 0x7000) (i64 0#3)).type = 0#64 ∧ descReserved d22 = 0#52 ∧
    PcidAllowed (s64 0x7000) d22 ∧ canonical 48 (descLinear d22) = true ∧
    (e5 ∈ (s64 0x7000).tc ∧ e5.isGlobal = false ∧ e5.pcid = descPcid d22 ∧
      inRanges e5.region (descLinear d22).toNat = true) := ⟨reads64 0#3, by decide⟩

theorem witness_TypeOneInvalidatesThePcid :
    ReadsDescriptor (i64 1#3) (s64 0x7000) d22 ∧ (decodedIn (s64 0x7000) (i64 1#3)).type = 1#64 ∧ descReserved d22 = 0#52 ∧
    PcidAllowed (s64 0x7000) d22 ∧ (e1 ∈ (s64 0x7000).tc ∧ e1.isGlobal = false ∧ e1.pcid = descPcid d22) :=
  ⟨reads64 1#3, by decide⟩

/-- The three clauses: a descriptor without and with a reserved bit (bit 12), and an operand that is not read. -/
theorem witness_TypeTwoEmptiesTheCaches :
    (ReadsDescriptor (i64 2#3) (s64 0x7000) d22 ∧ (decodedIn (s64 0x7000) (i64 2#3)).type = 2#64 ∧ descReserved d22 = 0#52) ∧
    (ReadsDescriptor (i64 2#3) (s64 0x8000) 0x1000#128 ∧ (decodedIn (s64 0x8000) (i64 2#3)).type = 2#64 ∧
      descReserved 0x1000#128 ≠ 0#52) ∧
    (Admitted (i16 2#3) (sReal 0xFFF1) ∧ (decodedIn (sReal 0xFFF1) (i16 2#3)).type = 2#64 ∧
      operandRead (i16 2#3) (sReal 0xFFF1) = .refused .operandPastOffsetSpace) :=
  ⟨⟨reads64 2#3, by decide⟩, ⟨⟨⟨rfl, rfl, rfl, by decide, fun _ => rfl⟩, by decide⟩, by decide⟩,
    ⟨⟨rfl, rfl, rfl, by decide, fun _ => rfl⟩, by decide⟩⟩

theorem witness_TypeThreeInvalidatesAllButGlobal :
    ReadsDescriptor (i64 5#3) (s64 0x7000) d22 ∧ (decodedIn (s64 0x7000) (i64 5#3)).type = 3#64 ∧ descReserved d22 = 0#52 ∧
    (e6 ∈ (s64 0x7000).tc ∧ e6.isGlobal = false) := ⟨reads64 5#3, by decide⟩

/-- For the statements about a completed execution of either form: ResultIsAFreeSubsetOutsideTheMustSet,
CompletedInvpcidFrame, InstructionPointerAdvancesByLength, InvpcidPreservesNoPcidWhenDisabled. -/
theorem witness_CompletedExecutions :
    isNext (exec (i64 2#3) (s64 0x7000)) = true ∧ isNext (exec (i32 1#3) (s32 0)) = true ∧
    isNext (exec (i16 2#3) (sReal 0)) = true ∧
    ipValue (s64 0x7000) + (i64 2#3).length < 2 ^ ipWidth (s64 0x7000) ∧ NoPcidWhenDisabled (s32 0) := by decide

theorem witness_PcideOffConfinesToPcidZero :
    (s32 0).cr4Pcide = false ∧ NoPcidWhenDisabled (s32 0) ∧ isNext (exec (i32 1#3) (s32 0)) = true ∧
    (decodedIn (s32 0) (i32 1#3)).type = 1#64 ∧ e6 ∈ (s32 0).tc := by decide

/-- Type 1 with V2.2 against PCID 005 and a zero address; and an execution that faults (bit 12 set) with each. -/
theorem witness_LinearAddressUnusedByTypesOneToThree :
    ((decodedIn (s64 0x7000) (i64 1#3)).type ≠ 0#64 ∧ operandRead (i64 1#3) (s64 0x7000) = .value d22 ∧
      operandRead (i64 1#3) { s64 0x7000 with mem := [(0x7000, 5#8)] } = .value 5#128 ∧
      d22.extractLsb' 0 64 = (5#128).extractLsb' 0 64 ∧ isNext (exec (i64 1#3) (s64 0x7000)) = true) ∧
    (isFault (.gp (some 0)) (exec (i64 1#3) (s64 0x8000)) = true ∧
      operandRead (i64 1#3) (s64 0x8000) = .value 0x1000#128 ∧
      operandRead (i64 1#3) { s64 0x8000 with mem := [(0x8001, 0x10#8), (0x8008, 1#8)] }
        = .value 0x00000000000000010000000000001000#128) := by decide

theorem witness_PcidUnusedByTypesTwoAndThree :
    (decodedIn (s64 0x7000) (i64 2#3)).type = 2#64 ∧ (decodedIn (s64 0x7000) (i64 5#3)).type = 3#64 ∧
    operandRead (i64 2#3) (s64 0x7000) = .value d22 ∧
    operandRead (i64 2#3) { s64 0x7000 with mem := [(0x7000, 7#8)] } = .value 7#128 ∧
    descReserved d22 = descReserved 7#128 ∧ isNext (exec (i64 2#3) (s64 0x7000)) = true ∧
    isNext (exec (i64 5#3) (s64 0x7000)) = true := by decide

/-- The refused outcome of the two statements on unused fields is reached in the state decision D9 leaves open (type 1). -/
theorem witness_RefusedOutcome :
    isRefused .pcideOutside64BitMode (exec (i32 1#3) { s32 0x7000 with cr4Pcide := true }) = true ∧
    operandRead (i32 1#3) { s32 0x7000 with cr4Pcide := true } = .value d22 := by decide

theorem witness_R32IgnoresUpperRegisterHalves :
    MemOperand.size (.addr32 (.based 3#3 .none)) ≠ .a64 ∧ isNext (exec (i32 1#3) (s32 0)) = true ∧
    isFault (.gp (some 0)) (exec (i32 6#3) (s32 0)) = true := by decide

theorem witness_Virtual8086AlwaysFaults :
    (let s := { s32 0 with mode := .virtual8086, cpl := 3 };
      s.mode = .virtual8086 ∧ lockPresent [.mandatory66] = false ∧ s.cfg.hasInvpcid = true ∧
      lockPresent [.lock, .mandatory66] = true ∧ isFault (.gp (some 0)) (exec (i16 2#3) s) = true) := by decide

theorem witness_LockOrMissingFeatureFaults :
    i64lock.validIn (s64 0).mode = true ∧ lockPresent i64lock.prefixes = true ∧
    (∀ c ∈ conditionsOf i64lock (s64 0), c = .ud1 ∨ c = .ud2) ∧ PcideOnlyIn64 (s64 0) ∧
    ({ s64 0 with cfg := { resetConfig with hasInvpcid := false } } : State).cfg.hasInvpcid = false ∧
    ({ s64 0 with cfg := { resetConfig with faultOrder := .defaultOrder } } : State).cfg.faultOrder = .defaultOrder := by
  decide

/-- An operand that is read, in 64-bit and protected mode, and one that raises only GP3. -/
theorem witness_NonzeroPrivilegeFaults :
    (let s := { s64 0 with cpl := 3 };
      (i64 2#3).validIn s.mode = true ∧ s.cpl ≠ 0 ∧ raisedBy (operandRead (i64 2#3) s) = []) ∧
    (let s := { s32 0 with cpl := 1 };
      (i32 2#3).validIn s.mode = true ∧ s.mode = .protectedMode ∧ raisedBy (operandRead (i32 2#3) s) = []) ∧
    (let s := { s32 0 with cpl := 1, ds := { flat with inLimit := [⟨0, 14⟩] } };
      lockPresent (i32 2#3).prefixes = false ∧ raisedBy (operandRead (i32 2#3) s) = [.gp3] ∧
        isFault (.gp (some 0)) (exec (i32 2#3) s) = true) := by decide

/-- Both clauses: SS unusable (V4.7), and DS with the last byte outside the limit (V4.2). -/
theorem witness_SegmentViolationsFault :
    (let s := { s32 0 with ss := { flat with unusable := true } };
      Admitted (i32ss 2#3) s ∧ (decodedIn s (i32ss 2#3)).seg = .ss ∧ s.ss.unusable = true ∧
      (decodedIn s (i32ss 2#3)).ea.toNat + 15 < 2 ^ (decodedIn s (i32ss 2#3)).size.bits ∧
      (decodedIn s (i32ss 2#3)).type ≤ 3#64) ∧
    (let s := { s32 0 with ds := { flat with inLimit := [⟨0, 14⟩] } };
      Admitted (i32 2#3) s ∧ (decodedIn s (i32 2#3)).seg = .ds ∧ limitOk s.ds 0 15 = true ∧ limitOk s.ds 0 16 = false ∧
      (decodedIn s (i32 2#3)).type ≤ 3#64) :=
  ⟨⟨⟨rfl, rfl, rfl, by decide, fun _ => rfl⟩,
      by decide⟩,
    ⟨⟨rfl, rfl, rfl, by decide, fun _ => rfl⟩,
      by decide⟩⟩

/-- V4.9: bytes 0 to 7 canonical, byte 8 not. -/
theorem witness_NonCanonicalOperandFaults :
    Admitted (i64 2#3) (s64 0x00007FFFFFFFFFF8) ∧
    (decodedIn (s64 0x00007FFFFFFFFFF8) (i64 2#3)).ea.toNat + 15 < 2 ^ 64 ∧
    (decodedIn (s64 0x00007FFFFFFFFFF8) (i64 2#3)).type ≤ 3#64 ∧
    canonical 48 (linearAddr (s64 0x00007FFFFFFFFFF8) .ds 0x00007FFFFFFFFFF8#64 7) = true ∧
    canonical 48 (linearAddr (s64 0x00007FFFFFFFFFF8) .ds 0x00007FFFFFFFFFF8#64 8) = false :=
  ⟨⟨rfl, rfl, rfl, by decide, fun _ => rfl⟩,
    by decide⟩

/-- V4.13: only the last byte faults, with code 4. -/
def sPageFault : State :=
  { s64 0x7000 with xlat := { rules := [⟨⟨0x700F, 0x700F⟩, some .read, none, none, .pageFault 4⟩], otherwise := .identity } }

theorem witness_OperandPageFaultIsReported :
    Admitted (i64 2#3) sPageFault ∧ sPageFault.mode ≠ .realAddress ∧
    (decodedIn sPageFault (i64 2#3)).ea.toNat + 15 < 2 ^ 64 ∧ (decodedIn sPageFault (i64 2#3)).type ≤ 3#64 ∧
    addressConditions sPageFault .ds 0x7000#64 = [] ∧
    translateAddr sPageFault .read (linearAddr sPageFault .ds 0x7000#64 15) = .pageFault 4 ∧
    (∀ k < 15, translateAddr sPageFault .read (linearAddr sPageFault .ds 0x7000#64 k) ≠ .pageFault 5) ∧
    isFault (.pf 4) (exec (i64 2#3) sPageFault) = true :=
  ⟨⟨rfl, rfl, rfl, by decide, fun _ => rfl⟩,
    by decide⟩

/-- Each of the four checks, and none of them: type 4; bit 12; PCID 001 with `CR4.PCIDE = 0`; a non-canonical address. -/
theorem witness_OperandValueChecks :
    (ReadsDescriptor (i64 6#3) (s64 0x7000) d22 ∧ (decodedIn (s64 0x7000) (i64 6#3)).type > 3#64) ∧
    (operandRead (i64 2#3) (s64 0x8000) = .value 0x1000#128 ∧ descReserved 0x1000#128 ≠ 0#52) ∧
    (operandRead (i32 1#3) (s32 0x7000) = .value d22 ∧ (s32 0x7000).cr4Pcide = false ∧ descPcid d22 ≠ 0#12) ∧
    (operandRead (i64 0#3) (s64 0x9000) = .value 0x0123456789ABCDEF0000000000000001#128 ∧
      canonical 48 (descLinear 0x0123456789ABCDEF0000000000000001#128) = false) ∧
    (ReadsDescriptor (i64 0#3) (s64 0x7000) d22 ∧ isNext (exec (i64 0#3) (s64 0x7000)) = true) :=
  ⟨⟨reads64 6#3, by decide⟩, by decide, by decide, by decide, ⟨reads64 0#3, by decide⟩⟩

/-- For the statements about a reported fault (ReportedFaultIsOfAConditionThatHolds, OneExceptionIsReportedForEveryChoice,
AConditionThatHoldsFaults, DefaultOrderReportsTheFirst, ExceptionsOfEachMode): one in each kind of mode. -/
theorem witness_ReportedFaults :
    (PcideOnlyIn64 (s64 0x7000) ∧ isFault (.gp (some 0)) (exec (i64 6#3) (s64 0x7000)) = true ∧
      conditionsOf (i64 6#3) (s64 0x7000) = [.gp7]) ∧
    (PcideOnlyIn64 (sReal 0) ∧ isFault (.gp none) (exec (i16 6#3) (sReal 0)) = true) ∧
    (let s := { s64 0x7000 with cpl := 3, cfg := { resetConfig with faultOrder := .defaultOrder } };
      isFault .ud (exec i64lock s) = true ∧ conditionsOf i64lock s = [.ud2, .gp2]) ∧
    (entryConditions (lockPresent i64lock.prefixes) (s64 0) ≠ [] ∧
      operandRead (i64 6#3) (s64 0x7000) = .value d22) := by decide

theorem witness_CompletesExactlyWithoutConditions :
    (i64 0#3).validIn (s64 0x7000).mode = true ∧ PcideOnlyIn64 (s64 0x7000) ∧ conditionsOf (i64 0#3) (s64 0x7000) = [] ∧
    operandRead (i64 0#3) (s64 0x7000) = .value d22 ∧ conditionsOf (i64 6#3) (s64 0x7000) ≠ [] := by decide

theorem witness_FormOfAnotherModeRefused :
    (i32 2#3).validIn (s64 0).mode = false ∧ (i64 2#3).validIn (s32 0).mode = false := by decide

/-- The three clauses: offset FFF1H with 16-bit addressing; real-address mode with a limit of 14; a device at FH. -/
theorem witness_OperandReadRefusals :
    (Admitted (i16 2#3) (sReal 0xFFF1) ∧ 2 ^ 16 ≤ (decodedIn (sReal 0xFFF1) (i16 2#3)).ea.toNat + 15) ∧
    (let s := { sReal 0 with ds := { Segment.atReset 0#64 with inLimit := [⟨0, 14⟩] } };
      Admitted (i16 2#3) s ∧ (decodedIn s (i16 2#3)).ea.toNat + 15 < 2 ^ 16 ∧ s.mode = .realAddress ∧
      limitOk (segAttrs s .ds) 0 16 = false) ∧
    (let s := { sReal 0 with nonOrdinary := [⟨15, 15⟩] };
      Admitted (i16 2#3) s ∧ addressConditions s .ds 0#64 = [] ∧ limitOk (segAttrs s .ds) 0 16 = true ∧
      (∀ k < 16, translateAddr s .read (linearAddr s .ds 0#64 k) = .phys k) ∧
      inRanges s.nonOrdinary 15 = true ∧ isRefused .operandNotOrdinaryMemory (exec (i16 2#3) s) = true) :=
  ⟨⟨⟨rfl, rfl, rfl, by decide, fun _ => rfl⟩,
      by decide⟩,
    ⟨⟨rfl, rfl, rfl, by decide, fun _ => rfl⟩,
      by decide⟩,
    ⟨⟨rfl, rfl, rfl, by decide, fun _ => rfl⟩,
      by decide⟩⟩

theorem witness_PcideOutside64BitModeRefused :
    (let s := { s32 0x7000 with cr4Pcide := true, mode := .compatibility };
      ReadsDescriptor (i32 1#3) s d22 ∧ s.cr4Pcide = true ∧ s.mode ≠ .sixtyFourBit ∧ (decodedIn s (i32 1#3)).type = 1#64 ∧
      descPcid d22 ≠ 0#12 ∧ descReserved d22 = 0#52) :=
  ⟨⟨⟨rfl, rfl, rfl, by decide, fun _ => rfl⟩, by decide⟩, by decide⟩

theorem witness_RefusedOnlyByTheOperandRead :
    (i16 2#3).validIn (sReal 0xFFF1).mode = true ∧ PcideOnlyIn64 (sReal 0xFFF1) ∧
    isRefused .operandPastOffsetSpace (exec (i16 2#3) (sReal 0xFFF1)) = true := by decide

/-- For EveryStepKeepsTheInvariant and RunsOnlyRemoveMappings. -/
theorem witness_Steps :
    StateInv (State.reset.withFetchWord 40 0x660F388207) ∧
    isNext (step (State.reset.withFetchWord 40 0x660F388207)) = true ∧
    isNext (core.run 1 (State.reset.withFetchWord 40 0x660F388207)) = true :=
  ⟨⟨by decide, by decide, by decide, by decide⟩, by decide, by decide⟩

/-- For the two statements on readable operands. -/
theorem witness_ReadableOperands :
    operandRead (i64 0#3) (s64 0x7000) = .value d22 ∧
    (decodedIn (s64 0x7000) (i64 0#3)).ea.toNat + 15 < 2 ^ 64 ∧
    (∀ k < 16, canonical 48 (linearAddr (s64 0x7000) .ds 0x7000#64 k) = true) ∧
    (∀ k < 16, translateAddr (s64 0x7000) .read (linearAddr (s64 0x7000) .ds 0x7000#64 k) = .phys (0x7000 + k) ∧
      inRanges (s64 0x7000).nonOrdinary (0x7000 + k) = false) ∧
    limitOk (segAttrs (s32 0x7001) .ds) 0x7001 16 = true ∧ (segAttrs (s32 0x7001) .ds).unusable = false ∧
    (∀ k < 16, translateAddr (s32 0x7001) .read (linearAddr (s32 0x7001) .ds 0x7001#64 k) = .phys (0x7001 + k)) := by decide

/-- For DescriptorIsReadLittleEndian: a sole agent, and another agent that writes the sixth byte of the operand. -/
theorem witness_DescriptorIsReadLittleEndian :
    (operandRead (i64 0#3) (s64 0x7000) = .value d22 ∧ SoleAgent (i64 0#3) (s64 0x7000)) ∧
    (∃ d, operandRead (i64 0#3) { s64 0x7000 with otherWriters := [⟨0x7005, 0x7005⟩] } = .value d) ∧
    inRanges [⟨0x7005, 0x7005⟩] 0x7004 = false ∧ inRanges [⟨0x7005, 0x7005⟩] 0x7005 = true :=
  ⟨⟨by decide, fun _ _ _ _ => rfl⟩,
    ⟨_, memRead_value.mpr ⟨by decide, by decide, by decide, by decide, by decide, rfl⟩⟩, by decide, by decide⟩

/-- For LinearAddressFormula: GS in 64-bit mode, DS in it, and a sum that passes 2^32 outside it. -/
theorem witness_LinearAddressFormula :
    (s64 0).mode = .sixtyFourBit ∧ (s32 0).mode ≠ .sixtyFourBit ∧
    linearAddr (s32 0) .ds 0xFFFFFFFF#64 1 = 0#64 ∧
    linearAddr { s64 0 with gs := Segment.atReset 0x1000#64, ds := Segment.atReset 0x1000#64 } .gs 5#64 1 = 0x1006#64 ∧
    linearAddr { s64 0 with gs := Segment.atReset 0x1000#64, ds := Segment.atReset 0x1000#64 } .ds 5#64 1 = 6#64 := by decide

theorem witness_OperandSegmentRules :
    segOverride [.seg .es, .mandatory66] = some .es ∧ segOverride [.mandatory66, .seg .gs] = some .gs ∧
    segOverride [.lock, .mandatory66] = none := by decide

/-- For the statements on effective addresses: R12 is an index, RSP is none; sums that wrap; a negative displacement. -/
theorem witness_EffectiveAddresses :
    regNumber true 4#3 ≠ 4#4 ∧ regNumber (rexX none) 4#3 = 4#4 ∧
    (s32 0).mode ≠ .sixtyFourBit ∧ (s64 0).mode = .sixtyFourBit ∧
    effAddr (s32 0xFFFFFFFF) none 6 (.addr32 (.based 3#3 (.short 1#8))) = 0#64 ∧
    effAddr (sReal 0) none 6 (.addr16 (.based .bpSi (.short 0xFF#8))) = 6#64 ∧
    effAddr (s64 0) none 6 (.addr64 (.based 3#3 (.short 0xFF#8))) = 0xFFFFFFFFFFFFFFFF#64 := by decide

end Sys2Proof.Tests
end

section
/-! SUPPORT. The reported exception: a fault comes from raising the conditions that hold (`60_exceptions.md` rule R168). -/

namespace Sys2Proof.Machine

/-- Elsewhere than in a mode that encodes its form an instruction is refused, so it does not fault. -/
theorem validIn_of_exec_fault {i : Instr} {s : State} {f : Fault} (h : exec i s = .fault f) :
    i.validIn s.mode = true := by
  by_contra hv
  rw [exec_eq, if_neg hv] at h
  cases h

/-- WHERE A FAULT COMES FROM under the source's invariant: from raising the conditions that hold, in the default order. -/
theorem exec_fault {i : Instr} {s : State} {f : Fault} (hp : PcideOnlyIn64 s) (h : exec i s = .fault f) :
    ∃ c cs, conditionsOf i s = c :: cs ∧ raise s c cs = .fault f := by
  obtain ⟨c, cs, hc, he⟩ | ⟨r, -, -, -, he⟩ | ⟨d, -, -, -, he⟩ := exec_cases (validIn_of_exec_fault h) hp
  · exact ⟨c, cs, hc, he ▸ h⟩
  · cases he.symm.trans h
  · cases he.symm.trans h

/-- Settles O33: a fault comes from raising `conditionsOf`, and in the default order `raise` reports the first of them. -/
theorem defaultOrderReportsTheFirst : Obligations.DefaultOrderReportsTheFirst := by
  intro i s f hd hp h
  obtain ⟨c, cs, hc, hr⟩ := exec_fault hp h
  rw [raise_default hd] at hr
  exact ⟨c, cs, hc, (Host.Outcome.fault.inj hr).symm⟩

end Sys2Proof.Machine
end

section
/-! SUPPORT. What every completed execution, step and run keeps: only the caches, `rIP` and the draw change, and the caches
only lose entries (`10_state.md` rule R34, `40_invpcid.md` rule R132). -/

namespace Sys2Proof.Machine

/-! ### The frame of an execution, a step and a run -/

/-- `t` is `s` but for the caches, which only lost entries, `rIP` and the model's draw. -/
def RemovesOnly (s t : State) : Prop :=
  ∃ (tc : List CacheEntry) (rip : Word) (draw : Nat), tc.Sublist s.tc ∧ t = { s with tc := tc, rip := rip, draw := draw }

theorem RemovesOnly.refl (s : State) : RemovesOnly s s := ⟨s.tc, s.rip, s.draw, List.Sublist.refl _, rfl⟩

theorem RemovesOnly.trans {s t u : State} (hst : RemovesOnly s t) (htu : RemovesOnly t u) : RemovesOnly s u := by
  obtain ⟨_, _, _, hst, rfl⟩ := hst
  obtain ⟨tc, rip, draw, htu, rfl⟩ := htu
  exact ⟨tc, rip, draw, htu.trans hst, rfl⟩

theorem removesOnly_complete (s : State) (type : Word) (d : Descriptor) (len : Nat) :
    RemovesOnly s (complete s type d len) :=
  ⟨invalidate s.draw type d s.tc, nextRip s len, s.draw + 1, invalidate_sublist .., rfl⟩

/-- With no entry added and `CR4.PCIDE` unchanged, no PCID comes in (`10_state.md` rule R32). -/
theorem RemovesOnly.noPcidWhenDisabled {s t : State} (h : RemovesOnly s t) (hs : NoPcidWhenDisabled s) :
    NoPcidWhenDisabled t := by
  obtain ⟨tc, rip, draw, hsub, rfl⟩ := h
  exact fun hp e he => hs hp e (hsub.subset he)

/-- Every part of the invariant survives the loss of cached entries. -/
theorem RemovesOnly.stateInv {s t : State} (h : RemovesOnly s t) (hs : StateInv s) : StateInv t := by
  have hpcid : NoPcidWhenDisabled t := h.noPcidWhenDisabled hs.noPcidWhenDisabled
  obtain ⟨tc, rip, draw, hsub, rfl⟩ := h
  exact ⟨hs.pcideOnlyIn64, hpcid, hs.memoryCanonical, hs.cacheIsSet.sublist hsub⟩

theorem removesOnly_of_exec_next {i : Instr} {s t : State} (h : exec i s = .next t) : RemovesOnly s t := by
  obtain ⟨d, -, -, -, -, rfl⟩ := exec_next.mp h
  exact removesOnly_complete ..

/-- A step that completes is one completed instruction. -/
theorem exec_of_step_next {s t : State} (h : step s = .next t) : ∃ i, exec i s = .next t := by
  obtain ⟨i, -, -, he⟩ | ⟨r, hr⟩ := step_cases s
  · exact ⟨i, he ▸ h⟩
  · cases hr.symm.trans h

theorem removesOnly_of_step_next {s t : State} (h : step s = .next t) : RemovesOnly s t := by
  obtain ⟨i, hi⟩ := exec_of_step_next h
  exact removesOnly_of_exec_next hi

/-- A run of `k + 1` steps that completes: its first step completes, and so does the run of `k` steps from there. -/
theorem run_succ_next {M : Host.Core} {k : Nat} {s t : M.State} (h : M.run (k + 1) s = .next t) :
    ∃ u, M.step s = .next u ∧ M.run k u = .next t := by
  simp only [Host.Core.run] at h
  split at h
  · exact ⟨_, ‹_›, h⟩
  · cases h
  · cases h

theorem removesOnly_of_run_next {k : Nat} {s t : State} (h : core.run k s = .next t) : RemovesOnly s t := by
  induction k generalizing s with
  | zero =>
    obtain rfl : s = t := Host.Outcome.next.inj h
    exact .refl s
  | succ k ih =>
    obtain ⟨u, hstep, hrun⟩ := run_succ_next h
    exact (removesOnly_of_step_next hstep).trans (ih hrun)

/-- Settles O41: a step that answers a next state only removes cached entries, which keeps every part of the invariant. -/
theorem everyStepKeepsTheInvariant : Obligations.EveryStepKeepsTheInvariant :=
  fun _ _ hs h => (removesOnly_of_step_next h).stateInv hs

/-- Settles O44: the frame of a step, composed along the run. -/
theorem runsOnlyRemoveMappings : Obligations.RunsOnlyRemoveMappings := by
  intro k s t h
  have hframe : RemovesOnly s t := removesOnly_of_run_next h
  have hinv : StateInv s → StateInv t := hframe.stateInv
  obtain ⟨tc, rip, draw, hsub, rfl⟩ := hframe
  exact ⟨hsub, rfl, rfl, rfl, rfl, rfl, rfl, fun _ => rfl, rfl, rfl, rfl, rfl, rfl, rfl, hinv⟩

/-- Settles O39: a completed execution changes the caches, `rIP` and the draw alone. -/
theorem completedInvpcidFrame : Obligations.CompletedInvpcidFrame := by
  intro i s t h
  obtain ⟨tc, rip, draw, hsub, rfl⟩ := removesOnly_of_exec_next h
  exact ⟨fun _ => rfl, rfl, rfl, rfl, rfl, rfl, fun _ => rfl, rfl, rfl, rfl, rfl, rfl, fun _ => rfl, rfl, hsub⟩

/-- Settles O43: the entries left are among the old ones, and `CR4.PCIDE` is as before. -/
theorem invpcidPreservesNoPcidWhenDisabled : Obligations.InvpcidPreservesNoPcidWhenDisabled := by
  intro i s t h hs
  have hframe : RemovesOnly s t := removesOnly_of_exec_next h
  have hpcid : NoPcidWhenDisabled t := hframe.noPcidWhenDisabled hs
  obtain ⟨tc, rip, draw, hsub, rfl⟩ := hframe
  exact ⟨rfl, fun _ he => hsub.subset he, hpcid⟩

/-! ### The instruction pointer -/

theorem ipWidth_le (s : State) : ipWidth s ≤ 64 := by
  unfold ipWidth
  split
  · exact Nat.le_refl 64
  · split <;> decide

@[simp] theorem ipWidth_complete (s : State) (type : Word) (d : Descriptor) (len : Nat) :
    ipWidth (complete s type d len) = ipWidth s := rfl

/-- The significant part of a sum is the sum of the significant parts, where that stays inside the width. -/
theorem toNat_add_ofNat_mod {w : Nat} (hw : w ≤ 64) (a : Word) {n : Nat} (h : a.toNat % 2 ^ w + n < 2 ^ w) :
    (a + BitVec.ofNat 64 n).toNat % 2 ^ w = a.toNat % 2 ^ w + n := by
  have hdvd : 2 ^ w ∣ 2 ^ 64 := Nat.pow_dvd_pow 2 hw
  calc (a + BitVec.ofNat 64 n).toNat % 2 ^ w
      = (a.toNat + n) % 2 ^ w := by
        rw [BitVec.toNat_add, BitVec.toNat_ofNat, Nat.add_mod_mod, Nat.mod_mod_of_dvd _ hdvd]
    _ = (a.toNat % 2 ^ w + n) % 2 ^ w := (Nat.mod_add_mod ..).symm
    _ = a.toNat % 2 ^ w + n := Nat.mod_eq_of_lt h

/-- Settles O40: the next `rIP` is `nextRip`, which is the sum where it stays inside the width. -/
theorem instructionPointerAdvancesByLength : Obligations.InstructionPointerAdvancesByLength := by
  intro i s t h hfit
  obtain ⟨d, -, -, -, -, rfl⟩ := exec_next.mp h
  have hrip : nextRip s i.length = s.rip + BitVec.ofNat 64 i.length := nextRip_eq hfit
  refine ⟨hrip, ?_⟩
  rw [ipValue, complete_rip, ipWidth_complete, hrip]
  exact toNat_add_ofNat_mod (ipWidth_le s) s.rip hfit

end Sys2Proof.Machine
end

section
/-! SUPPORT. How an execution ends that does not complete: in a fault where a condition of step A holds, and by which
refusals (`40_invpcid.md` rule R122, `60_exceptions.md` rule R168). -/

namespace Sys2Proof.Machine

/-! ### The conditions and their exceptions -/

/-- Outside real-address mode `#GP` has error code 0. -/
theorem gpFault_of_ne_realAddress {m : Mode} (h : m ≠ .realAddress) : gpFault m = .gp (some 0) := if_neg h

/-- The check of the type raises `#GP`. -/
theorem fault_of_mem_typeConditions {type : Word} {c : Condition} (h : c ∈ typeConditions type) (m : Mode) :
    c.fault m = gpFault m := by
  obtain ⟨-, rfl⟩ := (mem_holds _ _ _).mp h
  rfl

/-- The checks of the descriptor raise `#GP`. -/
theorem fault_of_mem_valueConditions {s : State} {type : Word} {d : Descriptor} {c : Condition}
    (h : c ∈ valueConditions s type d) (m : Mode) : c.fault m = gpFault m := by
  simp only [valueConditions, List.mem_append, mem_holds] at h
  obtain (⟨-, rfl⟩ | ⟨-, rfl⟩) | ⟨-, rfl⟩ := h <;> rfl

/-- The checks of what was read raise `#GP`. -/
theorem fault_of_mem_valueConditionsOf {s : State} {type : Word} {r : ReadResult} {c : Condition}
    (h : c ∈ valueConditionsOf s type r) (m : Mode) : c.fault m = gpFault m := by
  cases r with
  | value d => exact fault_of_mem_valueConditions h m
  | raised c cs => cases h
  | refused why => cases h

/-- Outside virtual-8086 mode a condition that holds is one of step A, of the operand read, of the type or of the value. -/
theorem mem_conditionsOf {i : Instr} {s : State} (hm : s.mode ≠ .virtual8086) {c : Condition} :
    c ∈ conditionsOf i s ↔
      c ∈ entryConditions (lockPresent i.prefixes) s ∨ c ∈ raisedBy (operandRead i s) ∨
        c ∈ typeConditions (decodedIn s i).type ∨
        c ∈ valueConditionsOf s (decodedIn s i).type (operandRead i s) := by
  simp [conditionsOf, hm]

/-- Without LOCK and with the feature, a privilege level other than 0 is the one condition of step A in the modes that
test it. -/
theorem entryConditions_gp2 {s : State} (hf : s.cfg.hasInvpcid = true) (hr : s.mode ≠ .realAddress)
    (hm : s.mode ≠ .virtual8086) (hcpl : s.cpl ≠ 0) : entryConditions false s = [.gp2] := by
  simp [entryConditions, recognitionConditions, holds, hf, hr, hm, hcpl]

/-! ### A condition of step A -/

/-- A CONDITION OF STEP A IS RAISED, whatever the operand read comes to, beside conditions that hold and, in the state of
decision D9, GP9. -/
theorem exec_of_entryConditions {i : Instr} {s : State} {c : Condition} {cs : List Condition}
    (hv : i.validIn s.mode = true) (hm : s.mode ≠ .virtual8086)
    (he : entryConditions (lockPresent i.prefixes) s = c :: cs) :
    ∃ more, exec i s = raise s c more ∧ ∀ x ∈ c :: more, x ∈ conditionsOf i s ∨ x = .gp9 := by
  simp only [exec_onOperand hv hm, mem_conditionsOf hm, he]
  generalize (decodedIn s i).type = type
  cases operandRead i s with
  | value d =>
    refine ⟨cs ++ typeConditions type ++ valueConditions s type d ++ holds (disputedPcid s type d) .gp9, rfl, ?_⟩
    simp only [raisedBy, valueConditionsOf, List.mem_cons, List.mem_append, mem_holds]
    tauto
  | raised a as =>
    refine ⟨cs ++ (a :: as) ++ typeConditions type, rfl, ?_⟩
    simp only [raisedBy, List.mem_cons, List.mem_append]
    tauto
  | refused why =>
    refine ⟨cs ++ typeConditions type, rfl, ?_⟩
    simp only [List.mem_cons, List.mem_append]
    tauto

/-- Settles O24: GP2 is a condition of step A, so the execution raises; without LOCK and with the feature it is the only one
of step A, and every other condition raises `#GP(0)` as well. -/
theorem nonzeroPrivilegeFaults : Obligations.NonzeroPrivilegeFaults := by
  intro i s hv hmode hcpl
  have hr : s.mode ≠ .realAddress := by rintro h; simp [h] at hmode
  have hm : s.mode ≠ .virtual8086 := by rintro h; simp [h] at hmode
  constructor
  · have hne : entryConditions (lockPresent i.prefixes) s ≠ [] := by simp [hr, hcpl]
    obtain ⟨c, cs, he⟩ := List.exists_cons_of_ne_nil hne
    obtain ⟨more, hraise, -⟩ := exec_of_entryConditions hv hm he
    exact ⟨_, hraise⟩
  · intro hlock hf hread
    have he : entryConditions (lockPresent i.prefixes) s = [.gp2] := hlock ▸ entryConditions_gp2 hf hr hm hcpl
    obtain ⟨more, hraise, hmore⟩ := exec_of_entryConditions hv hm he
    rw [hraise, ← gpFault_of_ne_realAddress hr]
    refine raise_of_all_same fun c hc => ?_
    obtain hc | rfl := hmore c hc
    · obtain hc | hc | hc | hc := (mem_conditionsOf hm).mp hc
      · rw [he, List.mem_singleton] at hc
        subst hc
        rfl
      · obtain rfl | rfl | rfl | rfl := hread c hc <;> rfl
      · exact fault_of_mem_typeConditions hc _
      · exact fault_of_mem_valueConditionsOf hc _
    · rfl

/-! ### Refusals -/

/-- After the read, where no condition holds: refused in the state of decision D9, else completed. -/
theorem afterRead_of_noConditions {s : State} {type : Word} {d : Descriptor} (ht : typeConditions type = [])
    (hv : valueConditions s type d = []) (len : Nat) :
    afterRead s [] type d len =
      if disputedPcid s type d then .refused .pcideOutside64BitMode else .next (complete s type d len) := by
  rw [afterRead, ht, hv]
  rfl

/-- An admitted execution whose operand was read goes on with the checks of its operands. -/
theorem exec_of_readsDescriptor {i : Instr} {s : State} {d : Descriptor} (h : ReadsDescriptor i s d) :
    exec i s = afterRead s [] (decodedIn s i).type d i.length := by
  have he : entryConditions (lockPresent i.prefixes) s = [] :=
    (entryConditions_eq_nil _ _).mpr ⟨h.noLock, h.hasFeature, h.notVirtual8086, h.privileged⟩
  rw [exec_onOperand h.formOfMode h.notVirtual8086, h.readsValue, he]
  rfl

/-- Settles O37: no check of the operands fails, and the state is the disputed one. -/
theorem pcideOutside64BitModeRefused : Obligations.PcideOutside64BitModeRefused := by
  intro i s d hread hpcide hmode htype hpcid hres hcanon
  have ht : typeConditions (decodedIn s i).type = [] := by
    obtain h | h := htype <;> rw [h] <;> rfl
  have hv : valueConditions s (decodedIn s i).type d = [] :=
    (valueConditions_eq_nil ..).mpr ⟨hres, by simp [hpcide], hcanon⟩
  have hd : disputedPcid s (decodedIn s i).type d = true := by
    simp [disputedPcid, namesPcid, hpcide, hmode, htype, hpcid]
  rw [exec_of_readsDescriptor hread, afterRead_of_noConditions ht hv, if_pos hd]

/-- The real-mode limit is one of real-address mode. -/
theorem realAddress_of_pastRealModeLimit {s : State} {r : SegReg} {ea : Word} (h : pastRealModeLimit s r ea = true) :
    s.mode = .realAddress := by
  rw [pastRealModeLimit, Bool.and_eq_true, decide_eq_true_eq] at h
  exact h.1

/-- The refusals of the operand read (`20_memory.md` rule R66). -/
theorem memRead_refused {s : State} {size : AddrSize} {r : SegReg} {ea : Word} {why : Refusal}
    (h : memRead s size r ea = .refused why) :
    why = .operandPastOffsetSpace ∨ (why = .operandPastRealModeLimit ∧ s.mode = .realAddress) ∨
      why = .operandNotOrdinaryMemory := by
  obtain ⟨-, h'⟩ | ⟨-, ⟨c, cs, -, h'⟩ | ⟨-, ⟨hlim, h'⟩ | ⟨-, ⟨c, cs, -, h'⟩ | ⟨-, ⟨-, h'⟩ | ⟨-, h'⟩⟩⟩⟩⟩ :=
    memRead_cases s size r ea <;> cases h'.symm.trans h
  · exact .inl rfl
  · exact .inr (.inl ⟨rfl, realAddress_of_pastRealModeLimit hlim⟩)
  · exact .inr (.inr rfl)

/-- Settles O38: under the source's invariant an execution raises, is refused by its operand read, or completes. -/
theorem refusedOnlyByTheOperandRead : Obligations.RefusedOnlyByTheOperandRead := by
  intro i s r hv hp h
  obtain ⟨c, cs, -, he⟩ | ⟨r', -, -, hread, he⟩ | ⟨d, -, -, -, he⟩ := exec_cases hv hp
  · exact absurd (he.symm.trans h) (raise_ne_refused _ _ _ _)
  · cases he.symm.trans h
    exact ⟨hread, memRead_refused hread⟩
  · cases he.symm.trans h

end Sys2Proof.Machine
end

section
/-! SUPPORT. Must-sets, the reset state and the numbers of the registers. -/

namespace Sys2Proof.Machine

/-- Settles O17: a must-set looks at an entry's global flag, PCID and region alone (`40_invpcid.md` rules R125 to R128). -/
theorem mustSetIgnoresKindAndPayload : Obligations.MustSetIgnoresKindAndPayload := by
  intro type pcid linear e k n
  rfl

/-- Settles O42: at reset `CR4.PCIDE` is 0 and the caches are empty, and the memory is canonical. -/
theorem resetMeetsTheInvariant : Obligations.ResetMeetsTheInvariant where
  pcideOnlyIn64 := fun h => by cases h
  noPcidWhenDisabled := fun _ e he => by cases he
  memoryCanonical := reset_mem_wf
  cacheIsSet := List.nodup_nil

/-- Settles O45: the fields of the reset state, and the fetch at `CS.base + rIP`, with paging off. -/
theorem resetFetchesAtTheResetVector : Obligations.ResetFetchesAtTheResetVector :=
  ⟨rfl, rfl, rfl, by decide⟩

/-- The number a REX bit and a field of three bits make (`30_encoding.md` rules R83, R87). -/
theorem regNumber_toNat : ∀ (ext : Bool) (field : BitVec 3),
    (regNumber ext field).toNat = 8 * ext.toNat + field.toNat := by decide

/-- The low 32 bits of a register. -/
theorem x32_toNat (s : State) (n : BitVec 4) : (x32 s n).toNat = (x64 s n).toNat % 2 ^ 32 := by
  simp [x32]

/-- The low 16 bits of a register. -/
theorem x16_toNat (s : State) (n : BitVec 4) : (x16 s n).toNat = (x64 s n).toNat % 2 ^ 16 := by
  simp [x16]

/-- Settles O57: the sixteen numbers, the number of a REX bit and a field, and the views of a register. -/
theorem registerNumbersNameTheRegisters : Obligations.RegisterNumbersNameTheRegisters := by
  refine ⟨by decide, fun field => ⟨?_, regNumber_toNat true field⟩, fun s n => ⟨rfl, x32_toNat s n, x16_toNat s n⟩⟩
  simpa using regNumber_toNat false field

end Sys2Proof.Machine
end

section
/-! SUPPORT. The operand of an execution: linear addresses and canonical form (`20_memory.md` rules R50, R59), the endings of
the operand read (rule R66) with the exceptions and refusals they lead to, and the bytes of the descriptor (rule R52). -/

namespace Sys2Proof.Machine

/-! ### Linear addresses and canonical form -/

/-- In 64-bit mode the bases of FS and GS are used, and those of the other segments are taken as zero. -/
theorem segBase_sixtyFourBit {s : State} (hm : s.mode = .sixtyFourBit) (r : SegReg) :
    segBase s r = if r = .fs ∨ r = .gs then (segAttrs s r).base else 0 := by
  cases r <;> simp [segBase, hm]

theorem segBase_of_ne_sixtyFourBit {s : State} (hm : s.mode ≠ .sixtyFourBit) (r : SegReg) :
    segBase s r = (segAttrs s r).base := if_neg fun h => hm h.1

/-- In 64-bit mode a linear address is a sum modulo 2^64. -/
theorem linearAddr_toNat_sixtyFourBit {s : State} (hm : s.mode = .sixtyFourBit) (r : SegReg) (ea : Word) (k : Nat) :
    (linearAddr s r ea k).toNat = ((segBase s r).toNat + ea.toNat + k) % 2 ^ 64 := by
  simp [linearAddr, truncateLinear, hm]

/-- Outside 64-bit mode a linear address is a sum modulo 2^32. -/
theorem linearAddr_toNat_of_ne_sixtyFourBit {s : State} (hm : s.mode ≠ .sixtyFourBit) (r : SegReg) (ea : Word) (k : Nat) :
    (linearAddr s r ea k).toNat = ((segBase s r).toNat + ea.toNat + k) % 2 ^ 32 := by
  simp only [linearAddr, truncateLinear, if_neg hm, BitVec.toNat_setWidth, BitVec.toNat_add, BitVec.toNat_ofNat]
  omega

/-- Settles O49: the sum of base, offset and `k` in the width of the mode, with the base of the mode. -/
theorem linearAddressFormula : Obligations.LinearAddressFormula := by
  intro s r ea k
  refine ⟨fun hm hr => ?_, fun hm hfs hgs => ?_, fun hm => ?_⟩
  · rw [linearAddr_toNat_sixtyFourBit hm, segBase_sixtyFourBit hm, if_pos hr]
  · rw [linearAddr_toNat_sixtyFourBit hm, segBase_sixtyFourBit hm, if_neg (not_or.mpr ⟨hfs, hgs⟩)]
    simp
  · rw [linearAddr_toNat_of_ne_sixtyFourBit hm, segBase_of_ne_sixtyFourBit hm]

/-- A signed value differs from the unsigned one by a multiple of every power of two up to the width of the word. -/
theorem two_pow_dvd_toInt_sub_toNat {n w : Nat} (hn : n ≤ w) (a : BitVec w) :
    ((2 ^ n : Nat) : Int) ∣ a.toInt - (a.toNat : Int) := by
  have hdvd : ((2 ^ n : Nat) : Int) ∣ ((2 ^ w : Nat) : Int) := Int.natCast_dvd_natCast.mpr (Nat.pow_dvd_pow 2 hn)
  rw [BitVec.toInt_eq_toNat_cond]
  split
  · simp
  · simpa using hdvd

/-- Canonical for a width: the signed value of the address is in the signed range of `width` bits. -/
theorem canonical_iff_toInt {width : Nat} (h1 : 1 ≤ width) (h64 : width ≤ 64) (a : Word) :
    canonical width a = true ↔
      -((2 ^ (width - 1) : Nat) : Int) ≤ a.toInt ∧ a.toInt < ((2 ^ (width - 1) : Nat) : Int) := by
  have hpow : 2 ^ width = 2 * 2 ^ (width - 1) := by rw [← Nat.pow_succ', Nat.succ_eq_add_one, Nat.sub_add_cancel h1]
  have hdvd := two_pow_dvd_toInt_sub_toNat h64 a
  rw [canonical, decide_eq_true_eq, ← BitVec.toInt_inj, BitVec.toInt_signExtend_of_le h64, BitVec.toInt_setWidth,
    Int.bmod_eq_iff (Nat.two_pow_pos width)]
  rw [hpow] at hdvd ⊢
  omega

/-- Settles O50: the two halves are the addresses whose signed value is in the signed range of `width` bits. -/
theorem canonicalAddressesAreTheTwoHalves : Obligations.CanonicalAddressesAreTheTwoHalves := by
  intro width a h1 h64
  have hle : 2 ^ (width - 1) ≤ 2 ^ 63 := Nat.pow_le_pow_right (by decide) (by omega)
  rw [canonical_iff_toInt h1 h64, BitVec.toInt_eq_toNat_cond]
  omega

/-! ### The conditions of the operand read -/

theorem addressConditions_of_segmented {s : State} (hm : s.mode = .protectedMode ∨ s.mode = .compatibility) (r : SegReg)
    (ea : Word) : addressConditions s r ea = segmentConditions s r ea := by
  obtain hm | hm := hm <;> simp only [addressConditions, hm]

theorem addressConditions_sixtyFourBit {s : State} (hm : s.mode = .sixtyFourBit) (r : SegReg) (ea : Word) :
    addressConditions s r ea = canonicalConditions s r ea := by simp only [addressConditions, hm]

theorem addressConditions_realAddress {s : State} (hm : s.mode = .realAddress) (r : SegReg) (ea : Word) :
    addressConditions s r ea = [] := by simp only [addressConditions, hm]

/-- Segmentation lets an operand pass that is inside the limit of a usable segment, which is no execute-only CS
(`20_memory.md` rule R55). -/
theorem segmentConditions_eq_nil {s : State} {r : SegReg} {ea : Word} :
    segmentConditions s r ea = [] ↔
      limitOk (segAttrs s r) ea.toNat 16 = true ∧ (r ≠ .cs → (segAttrs s r).unusable = false) ∧
        (r = .cs → s.cs.executeOnly = false) := by
  cases r <;> simp [segmentConditions, segAttrs, and_comm]

/-- In 64-bit mode an operand passes whose sixteen bytes are at canonical addresses (`20_memory.md` rule R56). -/
theorem canonicalConditions_eq_nil {s : State} {r : SegReg} {ea : Word} :
    canonicalConditions s r ea = [] ↔ ∀ k < 16, canonical s.cfg.laWidth (linearAddr s r ea k) = true := by
  simp [canonicalConditions]

/-- The exception of the conditions before paging: that of SS, or that of the other segments. -/
def segmentFault (r : SegReg) : Fault := if r = .ss then .ss 0 else .gp (some 0)

theorem fault_of_mem_segmentConditions {s : State} {r : SegReg} {ea : Word} {c : Condition} {m : Mode}
    (hm : m ≠ .realAddress) (h : c ∈ segmentConditions s r ea) : c.fault m = segmentFault r := by
  have hgp := gpFault_of_ne_realAddress hm
  by_cases hr : r = .ss
  · simp only [segmentConditions, if_pos hr, List.mem_append, mem_holds] at h
    obtain ⟨-, rfl⟩ | ⟨-, rfl⟩ := h <;> exact (if_pos hr).symm
  · simp only [segmentConditions, if_neg hr, List.mem_append, mem_holds] at h
    rw [segmentFault, if_neg hr, ← hgp]
    obtain (⟨-, rfl⟩ | ⟨-, rfl⟩) | ⟨-, rfl⟩ := h <;> rfl

theorem fault_of_mem_canonicalConditions {s : State} {r : SegReg} {ea : Word} {c : Condition} {m : Mode}
    (hm : m ≠ .realAddress) (h : c ∈ canonicalConditions s r ea) : c.fault m = segmentFault r := by
  obtain ⟨-, rfl⟩ := (mem_holds _ _ _).mp h
  rw [segmentFault, ← gpFault_of_ne_realAddress hm]
  split <;> rfl

/-- Whatever the mode, a condition that stands before paging raises the exception of the operand's segment. -/
theorem fault_of_mem_addressConditions {s : State} {r : SegReg} {ea : Word} {c : Condition}
    (h : c ∈ addressConditions s r ea) : c.fault s.mode = segmentFault r := by
  cases hm : s.mode <;> simp only [addressConditions, hm] at h
  case realAddress => cases h
  case virtual8086 => cases h
  case protectedMode => exact fault_of_mem_segmentConditions nofun h
  case compatibility => exact fault_of_mem_segmentConditions nofun h
  case sixtyFourBit => exact fault_of_mem_canonicalConditions nofun h

theorem mem_byteFault {s : State} {r : SegReg} {ea : Word} {k : Nat} {c : Condition} :
    c ∈ byteFault s r ea k ↔ ∃ code, translateAddr s .read (linearAddr s r ea k) = .pageFault code ∧ c = .pf1 code := by
  unfold byteFault
  split <;> rename_i h <;> simp [h]

/-- The page faults of the operand are those of its sixteen bytes (`20_memory.md` rule R58). -/
theorem mem_pageConditions {s : State} {r : SegReg} {ea : Word} {c : Condition} :
    c ∈ pageConditions s r ea ↔
      ∃ k < 16, ∃ code, translateAddr s .read (linearAddr s r ea k) = .pageFault code ∧ c = .pf1 code := by
  simp only [pageConditions, List.mem_flatMap, List.mem_range, mem_byteFault]

theorem byteFault_eq_nil {s : State} {r : SegReg} {ea : Word} {k : Nat} :
    byteFault s r ea k = [] ↔ ∃ p, translateAddr s .read (linearAddr s r ea k) = .phys p := by
  unfold byteFault
  split <;> rename_i h <;> simp [h]

/-- Without a page fault all sixteen bytes translate. -/
theorem pageConditions_eq_nil {s : State} {r : SegReg} {ea : Word} :
    pageConditions s r ea = [] ↔ ∀ k < 16, ∃ p, translateAddr s .read (linearAddr s r ea k) = .phys p := by
  simp only [pageConditions, List.flatMap_eq_nil_iff, List.mem_range, byteFault_eq_nil]

theorem operandPhys_eq {s : State} {r : SegReg} {ea : Word} {k p : Nat}
    (h : translateAddr s .read (linearAddr s r ea k) = .phys p) : operandPhys s r ea k = p := by rw [operandPhys, h]; rfl

theorem notOrdinary_eq_true {s : State} {r : SegReg} {ea : Word} :
    notOrdinary s r ea = true ↔ ∃ k < 16, inRanges s.nonOrdinary (operandPhys s r ea k) = true := by
  simp [notOrdinary]

theorem notOrdinary_eq_false {s : State} {r : SegReg} {ea : Word} :
    notOrdinary s r ea = false ↔ ∀ k < 16, inRanges s.nonOrdinary (operandPhys s r ea k) = false := by
  simp [notOrdinary]

theorem pastRealModeLimit_eq_false {s : State} {r : SegReg} {ea : Word} :
    pastRealModeLimit s r ea = false ↔ (s.mode = .realAddress → limitOk (segAttrs s r) ea.toNat 16 = true) := by
  by_cases hm : s.mode = .realAddress <;> simp [pastRealModeLimit, hm]

/-! ### The endings of the operand read -/

section memRead
variable {s : State} {size : AddrSize} {r : SegReg} {ea : Word}

theorem memRead_pastOffsetSpace (h : 2 ^ size.bits ≤ ea.toNat + 15) :
    memRead s size r ea = .refused .operandPastOffsetSpace := if_pos h

theorem memRead_addressConditions (hfit : ea.toNat + 15 < 2 ^ size.bits) {c : Condition} {cs : List Condition}
    (ha : addressConditions s r ea = c :: cs) : memRead s size r ea = .raised c cs := by
  simp only [memRead, if_neg (Nat.not_le.mpr hfit), ha]

theorem memRead_pastRealModeLimit (hfit : ea.toNat + 15 < 2 ^ size.bits) (ha : addressConditions s r ea = [])
    (hl : pastRealModeLimit s r ea = true) : memRead s size r ea = .refused .operandPastRealModeLimit := by
  simp only [memRead, if_neg (Nat.not_le.mpr hfit), ha, if_pos hl]

theorem memRead_pageConditions (hfit : ea.toNat + 15 < 2 ^ size.bits) (ha : addressConditions s r ea = [])
    (hl : pastRealModeLimit s r ea = false) {c : Condition} {cs : List Condition} (hp : pageConditions s r ea = c :: cs) :
    memRead s size r ea = .raised c cs := by
  simp [memRead, Nat.not_le.mpr hfit, ha, hl, hp]

theorem memRead_notOrdinary (hfit : ea.toNat + 15 < 2 ^ size.bits) (ha : addressConditions s r ea = [])
    (hl : pastRealModeLimit s r ea = false) (hp : pageConditions s r ea = []) (hn : notOrdinary s r ea = true) :
    memRead s size r ea = .refused .operandNotOrdinaryMemory := by
  simp [memRead, Nat.not_le.mpr hfit, ha, hl, hp, hn]

/-- An operand that passes the checks of its mode is read where its sixteen bytes translate to ordinary memory. -/
theorem exists_memRead_value (hfit : ea.toNat + 15 < 2 ^ size.bits) (ha : addressConditions s r ea = [])
    (hl : pastRealModeLimit s r ea = false)
    (hb : ∀ k < 16, ∃ p, translateAddr s .read (linearAddr s r ea k) = .phys p ∧ inRanges s.nonOrdinary p = false) :
    ∃ d, memRead s size r ea = .value d := by
  have hp : pageConditions s r ea = [] := pageConditions_eq_nil.mpr fun k hk => (hb k hk).imp fun _ h => h.1
  have hn : notOrdinary s r ea = false := by
    refine notOrdinary_eq_false.mpr fun k hk => ?_
    obtain ⟨p, hphys, hord⟩ := hb k hk
    rwa [operandPhys_eq hphys]
  exact ⟨_, memRead_value.mpr ⟨hfit, ha, hl, hp, hn, rfl⟩⟩

end memRead

/-- Settles O47: in 64-bit mode only canonical addresses are asked for before paging. -/
theorem readableOperandIsReadIn64BitMode : Obligations.ReadableOperandIsReadIn64BitMode := by
  intro i s hm hfit hcanon hb
  refine exists_memRead_value hfit ?_ (pastRealModeLimit_eq_false.mpr fun h => by cases hm.symm.trans h) hb
  rw [addressConditions_sixtyFourBit hm]
  exact canonicalConditions_eq_nil.mpr hcanon

/-- Settles O48: the segment conditions are those of protected and compatibility mode, the limit alone that of real-address
mode. -/
theorem readableOperandIsReadOutside64BitMode : Obligations.ReadableOperandIsReadOutside64BitMode := by
  intro i s hm hfit hlimit husable hexec hb
  refine exists_memRead_value hfit ?_ (pastRealModeLimit_eq_false.mpr fun _ => hlimit) hb
  by_cases hr : s.mode = .realAddress
  · exact addressConditions_realAddress hr _ _
  · have hseg : s.mode = .protectedMode ∨ s.mode = .compatibility := by tauto
    rw [addressConditions_of_segmented hseg]
    exact segmentConditions_eq_nil.mpr ⟨hlimit, husable hr, hexec hr⟩

/-! ### An admitted execution whose operand is not read -/

/-- An admitted execution runs on its operand read, with no condition of step A. -/
theorem exec_of_admitted {i : Instr} {s : State} (h : Admitted i s) :
    exec i s = runOnOperand s [] (decodedIn s i).type (operandRead i s) i.length := by
  have he : entryConditions (lockPresent i.prefixes) s = [] :=
    (entryConditions_eq_nil _ _).mpr ⟨h.noLock, h.hasFeature, h.notVirtual8086, h.privileged⟩
  rw [exec_onOperand h.formOfMode h.notVirtual8086, he]

/-- A refusal of the operand read is that of the execution. -/
theorem exec_of_operandRead_refused {i : Instr} {s : State} {why : Refusal} (h : Admitted i s)
    (hread : operandRead i s = .refused why) : exec i s = .refused why := by rw [exec_of_admitted h, hread]; rfl

/-- Conditions of the operand read that all raise one exception: with a valid type it is reported. -/
theorem exec_of_operandRead_raised {i : Instr} {s : State} {c : Condition} {cs : List Condition} {f : Fault}
    (h : Admitted i s) (htype : (decodedIn s i).type ≤ 3#64) (hread : operandRead i s = .raised c cs)
    (hf : ∀ x ∈ c :: cs, x.fault s.mode = f) : exec i s = .fault f := by
  rw [exec_of_admitted h, hread, runOnOperand, (typeConditions_eq_nil _).mpr htype, List.nil_append, List.append_nil,
    raiseIfAny_cons]
  exact raise_of_all_same hf

/-- A CONDITION THAT STANDS BEFORE PAGING raises the exception of the operand's segment. -/
theorem exec_of_addressConditions {i : Instr} {s : State} (h : Admitted i s)
    (hfit : (decodedIn s i).ea.toNat + 15 < 2 ^ (decodedIn s i).size.bits) (htype : (decodedIn s i).type ≤ 3#64)
    (hne : addressConditions s (decodedIn s i).seg (decodedIn s i).ea ≠ []) :
    exec i s = .fault (segmentFault (decodedIn s i).seg) := by
  obtain ⟨c, cs, ha⟩ := List.exists_cons_of_ne_nil hne
  refine exec_of_operandRead_raised h htype (memRead_addressConditions hfit ha) fun x hx => ?_
  exact fault_of_mem_addressConditions (ha ▸ hx)

/-- Settles O25: each violation is a segment condition, and all of them raise the exception of the operand's segment. -/
theorem segmentViolationsFault : Obligations.SegmentViolationsFault := by
  intro i s h hm hfit htype
  have hfault (hne : segmentConditions s (decodedIn s i).seg (decodedIn s i).ea ≠ []) :
      exec i s = .fault (segmentFault (decodedIn s i).seg) :=
    exec_of_addressConditions h hfit htype (addressConditions_of_segmented hm _ _ ▸ hne)
  rw [ne_eq, segmentConditions_eq_nil] at hfault
  constructor
  · intro hss hviol
    rw [hss] at hfault
    refine hfault ?_
    rintro ⟨hlimit, husable, -⟩
    obtain hv | hv := hviol
    · cases hv.symm.trans (husable nofun)
    · cases hv.symm.trans hlimit
  · intro hss hviol
    rw [segmentFault, if_neg hss] at hfault
    refine hfault ?_
    rintro ⟨hlimit, husable, hexec⟩
    obtain hv | ⟨hcs, hv⟩ | ⟨hcs, hv⟩ := hviol
    · cases hv.symm.trans hlimit
    · cases hv.symm.trans (husable hcs)
    · cases hv.symm.trans (hexec hcs)

/-- Settles O26: one byte that is not canonical is the canonical condition. -/
theorem nonCanonicalOperandFaults : Obligations.NonCanonicalOperandFaults := by
  intro i s k h hm hfit htype hk hcanon
  refine exec_of_addressConditions h hfit htype ?_
  rw [addressConditions_sixtyFourBit hm, ne_eq, canonicalConditions_eq_nil]
  exact fun hall => by cases hcanon.symm.trans (hall k hk)

/-- Settles O27: the page faults of the operand are the conditions of its read, and all of them have one code. -/
theorem operandPageFaultIsReported : Obligations.OperandPageFaultIsReported := by
  intro i s k code h hm hfit htype ha hk hpf hsame
  have hl : pastRealModeLimit s (decodedIn s i).seg (decodedIn s i).ea = false :=
    pastRealModeLimit_eq_false.mpr fun hr => absurd hr hm
  have hmem : .pf1 code ∈ pageConditions s (decodedIn s i).seg (decodedIn s i).ea :=
    mem_pageConditions.mpr ⟨k, hk, code, hpf, rfl⟩
  obtain ⟨c, cs, hp⟩ := List.exists_cons_of_ne_nil (List.ne_nil_of_mem hmem)
  refine exec_of_operandRead_raised h htype (memRead_pageConditions hfit ha hl hp) fun x hx => ?_
  obtain ⟨k', hk', code', hpf', rfl⟩ := mem_pageConditions.mp (hp ▸ hx)
  rw [hsame k' hk' code' hpf']
  rfl

/-- Settles O36: each ending is the one the operand read reaches first. -/
theorem operandReadRefusals : Obligations.OperandReadRefusals := by
  intro i s h
  refine ⟨fun hpast => ?_, fun hfit hm hlimit => ?_, fun hfit ha hlimit hphys hdevice => ?_⟩
  · exact exec_of_operandRead_refused h (memRead_pastOffsetSpace hpast)
  · have hl : pastRealModeLimit s (decodedIn s i).seg (decodedIn s i).ea = true := by
      simp [pastRealModeLimit, hm, hlimit]
    exact exec_of_operandRead_refused h (memRead_pastRealModeLimit hfit (addressConditions_realAddress hm _ _) hl)
  · have hl := pastRealModeLimit_eq_false.mpr hlimit
    have hn : notOrdinary s (decodedIn s i).seg (decodedIn s i).ea = true := by
      obtain ⟨k, hk, p, hp, hdev⟩ := hdevice
      exact notOrdinary_eq_true.mpr ⟨k, hk, by rwa [operandPhys_eq hp]⟩
    exact exec_of_operandRead_refused h (memRead_notOrdinary hfit ha hl (pageConditions_eq_nil.mpr hphys) hn)

/-! ### The bytes of the descriptor -/

theorem leNat_lt (bs : List Byte) : leNat bs < 256 ^ bs.length := by
  induction bs with
  | nil => decide
  | cons b bs ih =>
    have hb := b.isLt
    rw [leNat, List.length_cons, Nat.pow_succ]
    omega

/-- Digit `k` to the base 256 of the number that bytes stand for is byte `k`. -/
theorem leNat_digit (bs : List Byte) (k : Nat) (hk : k < bs.length) : leNat bs / 256 ^ k % 256 = bs[k].toNat := by
  induction bs generalizing k with
  | nil => exact absurd hk (Nat.not_lt_zero k)
  | cons b bs ih =>
    have hb := b.isLt
    cases k with
    | zero => simp only [leNat, List.getElem_cons_zero]; omega
    | succ k =>
      have hdiv : (b.toNat + 256 * leNat bs) / 256 = leNat bs := by omega
      rw [leNat, Nat.pow_succ', ← Nat.div_div_eq_div_mul, hdiv]
      exact ih k (Nat.lt_of_succ_lt_succ hk)

/-- Bits `8k + 7` to `8k` of the number that sixteen bytes stand for are byte `k`. -/
theorem extractLsb'_ofNat_leNat {bs : List Byte} (hlen : bs.length = 16) {k : Nat} (hk : k < bs.length) :
    (BitVec.ofNat 128 (leNat bs)).extractLsb' (8 * k) 8 = bs[k] := by
  have hlt : leNat bs < 2 ^ 128 := by simpa [hlen] using leNat_lt bs
  apply BitVec.eq_of_toNat_eq
  rw [BitVec.extractLsb'_toNat, BitVec.toNat_ofNat, Nat.mod_eq_of_lt hlt, Nat.shiftRight_eq_div_pow, Nat.pow_mul]
  exact leNat_digit bs k hk

/-- Bits `8k + 7` to `8k` of the descriptor are byte `k` of the operand (`20_memory.md` rule R52). -/
theorem descriptorAt_byte (s : State) (r : SegReg) (ea : Word) {k : Nat} (hk : k < 16) :
    (descriptorAt s r ea).extractLsb' (8 * k) 8 = operandByte s r ea k := by
  have hlen : ((List.range 16).map (operandByte s r ea)).length = 16 := by rw [List.length_map, List.length_range]
  rw [descriptorAt, extractLsb'_ofNat_leNat hlen (hlen.symm ▸ hk), List.getElem_map, List.getElem_range]

/-- Settles O46: a descriptor that was read is made of the sixteen operand bytes, each of which translates. -/
theorem descriptorIsReadLittleEndian : Obligations.DescriptorIsReadLittleEndian := by
  intro i s d hread k hk
  obtain ⟨-, -, -, hpage, -, rfl⟩ := memRead_value.mp hread
  obtain ⟨p, hp⟩ := pageConditions_eq_nil.mp hpage k hk
  have hbyte : (descriptorAt s (decodedIn s i).seg (decodedIn s i).ea).extractLsb' (8 * k) 8 = readDataByte s k p := by
    rw [descriptorAt_byte _ _ _ hk, operandByte, operandPhys_eq hp]
  refine ⟨p, hp, fun h => ?_, fun h => ?_⟩
  · have hsole : inRanges s.otherWriters p = false := h.elim (fun hagent => hagent k hk p hp) id
    rw [hbyte, readDataByte_memory hsole]
  · rw [hbyte, readDataByte_oracle h]

end Sys2Proof.Machine
end

section
/-! SUPPORT. A step: the fetched bytes decode to the instruction whose encoding they begin with (`20_memory.md` rule R67,
`30_encoding.md` rule R100). -/

namespace Sys2Proof

/-! ### Decoding an encoded instruction -/

theorem dispMod_eq_zero {w : Nat} {d : Disp w} : d.mod = 0#2 ↔ d = .none := by cases d <;> simp [Disp.mod]

theorem rm_eq_six {b : Base16} : b.rm = 6#3 ↔ b = .bp := by cases b <;> simp [Base16.rm]

/-- A 16-bit operand is written as a ModRM byte and bytes from which it is read back. -/
theorem ea16_decode_encode {ea : Ea16} (hw : ea.wellFormed = true) (reg : BitVec 3) :
    ∃ mod rm tail, ea.encode reg = modrmByte mod reg rm :: tail ∧ mod ≠ 3#2 ∧
      ∀ rest, decodeEa16 mod rm (tail ++ rest) = some (ea, rest) := by
  cases ea with
  | absolute v => exact ⟨0#2, 6#3, bytes16 v, rfl, by decide, by simp [decodeEa16]⟩
  | based b d =>
    have hbased : ¬(d.mod = 0#2 ∧ b.rm = 6#3) := by
      rw [dispMod_eq_zero, rm_eq_six]
      rintro ⟨rfl, rfl⟩
      cases hw
    exact ⟨d.mod, b.rm, d.encode16, rfl, dispMod_ne_three d, by simp [decodeEa16, hbased]⟩

/-- The scale of a SIB byte. -/
@[simp] theorem sibByte_scale (scale : BitVec 2) (index base : BitVec 3) :
    (sibByte scale index base).extractLsb' 6 2 = scale := modrmByte_mod ..

/-- The index of a SIB byte. -/
@[simp] theorem sibByte_index (scale : BitVec 2) (index base : BitVec 3) :
    (sibByte scale index base).extractLsb' 3 3 = index := modrmByte_reg ..

/-- The base of a SIB byte. -/
@[simp] theorem sibByte_base (scale : BitVec 2) (index base : BitVec 3) :
    (sibByte scale index base).extractLsb' 0 3 = base := modrmByte_rm ..

/-- A 32- or 64-bit operand is written as a ModRM byte and bytes from which it is read back. -/
theorem eaLong_decode_encode {ea : EaLong} (hw : ea.wellFormed = true) (reg : BitVec 3) :
    ∃ mod rm tail, ea.encode reg = modrmByte mod reg rm :: tail ∧ mod ≠ 3#2 ∧
      ∀ rest, decodeEaLong mod rm (tail ++ rest) = some (ea, rest) := by
  cases ea with
  | disp32 v => exact ⟨0#2, 5#3, bytes32 v, rfl, by decide, by simp [decodeEaLong]⟩
  | sibNoBase scale index v =>
    exact ⟨0#2, 4#3, sibByte scale index 5#3 :: bytes32 v, rfl, by decide, by simp [decodeEaLong, decodeSib]⟩
  | based rm d =>
    simp only [EaLong.wellFormed, Bool.and_eq_true, Bool.or_eq_true, decide_eq_true_eq] at hw
    obtain ⟨hsib, hdisp⟩ := hw
    have hbased : ¬(d.mod = 0#2 ∧ rm = 5#3) := by rw [dispMod_eq_zero]; tauto
    exact ⟨d.mod, rm, d.encode32, rfl, dispMod_ne_three d, by simp [decodeEaLong, hsib, hbased]⟩
  | sib scale index base d =>
    simp only [EaLong.wellFormed, Bool.or_eq_true, decide_eq_true_eq] at hw
    have hbased : ¬(d.mod = 0#2 ∧ base = 5#3) := by rw [dispMod_eq_zero]; tauto
    exact ⟨d.mod, 4#3, sibByte scale index base :: d.encode32, rfl, dispMod_ne_three d,
      by simp [decodeEaLong, decodeSib, hbased]⟩

/-- A memory operand is written as a ModRM byte and bytes from which it is read back. -/
theorem memOperand_decode_encode {mem : MemOperand} (hw : mem.wellFormed = true) (reg : BitVec 3) :
    ∃ mod rm tail, mem.encode reg = modrmByte mod reg rm :: tail ∧ mod ≠ 3#2 ∧
      ∀ rest, decodeMem mem.size mod rm (tail ++ rest) = some (mem, rest) := by
  cases mem with
  | addr16 ea =>
    obtain ⟨mod, rm, tail, henc, hmod, hdec⟩ := ea16_decode_encode hw reg
    exact ⟨mod, rm, tail, henc, hmod, fun rest => by simp [MemOperand.size, decodeMem, hdec]⟩
  | addr32 ea =>
    obtain ⟨mod, rm, tail, henc, hmod, hdec⟩ := eaLong_decode_encode hw reg
    exact ⟨mod, rm, tail, henc, hmod, fun rest => by simp [MemOperand.size, decodeMem, hdec]⟩
  | addr64 ea =>
    obtain ⟨mod, rm, tail, henc, hmod, hdec⟩ := eaLong_decode_encode hw reg
    exact ⟨mod, rm, tail, henc, hmod, fun rest => by simp [MemOperand.size, decodeMem, hdec]⟩

/-- From ModRM on, an operand of the mode's address size is read back, and the length decides (`30_encoding.md` rule R94). -/
theorem decodeFromModrm_encode {m : Mode} {csD : Bool} {ps : List Prefix} {mem : MemOperand}
    (hsize : mem.size = addressSize m csD (addressPrefixPresent ps)) (hw : mem.wellFormed = true) (rex : Option Rex)
    (reg : BitVec 3) (rest : List Byte) :
    decodeFromModrm m csD ps rex (mem.encode reg ++ rest) =
      if invpcidLength ps rex mem ≤ 15 then .instr (mkInstr m ps rex reg mem) rest else .refused .tooLong := by
  obtain ⟨mod, rm, tail, henc, hmod, hdec⟩ := memOperand_decode_encode hw reg
  simp [henc, decodeFromModrm, hmod, ← hsize, hdec]

/-- The opcode bytes after a REX byte, which stands in 64-bit mode only. -/
theorem takeRex_encodeRex {m : Mode} {rex : Option Rex} (hrex : m = .sixtyFourBit ∨ rex = none) (bs : List Byte) :
    takeRex m (encodeRex rex ++ (opcodeBytes ++ bs)) = (rex, opcodeBytes ++ bs) := by
  cases rex with
  | none =>
    simp only [encodeRex, opcodeBytes, List.nil_append, List.cons_append]
    cases m <;> simp [takeRex, rexOfByte_0F]
  | some x =>
    obtain rfl : m = .sixtyFourBit := by simpa using hrex
    simp [encodeRex, takeRex]

/-- Neither a REX byte nor the first opcode byte is one of the legacy prefixes. -/
theorem noPrefixHead_encodeRex (rex : Option Rex) (bs : List Byte) :
    NoPrefixHead (encodeRex rex ++ (opcodeBytes ++ bs)) := by
  cases rex with
  | none =>
    have h0F : prefixOfByte 0x0F#8 = none := by decide
    simpa [NoPrefixHead, encodeRex, opcodeBytes] using h0F
  | some x => simpa [NoPrefixHead, encodeRex] using rexByte_noPrefix x

/-- Legacy prefixes, REX and opcode are read as they were written. -/
theorem decode_prefixes_rex_opcode {m : Mode} {rex : Option Rex} (hrex : m = .sixtyFourBit ∨ rex = none) (csD : Bool)
    (ps : List Prefix) (bs : List Byte) :
    decode m csD (ps.map Prefix.byte ++ (encodeRex rex ++ (opcodeBytes ++ bs))) = decodeAfterOpcode m csD ps rex bs := by
  simp only [decode, takePrefixes_append ps (noPrefixHead_encodeRex rex bs), takeRex_encodeRex hrex]
  simp [opcodeBytes, decodeOpcode]

/-- After the opcode, with the prefixes of rule R93, ModRM is read. -/
theorem decodeAfterOpcode_of_prefixes {ps : List Prefix} (h66 : oneMandatoryPrefix ps = true)
    (h67 : atMostOneAddressPrefix ps = true) (hseg : atMostOneSegPrefix ps = true) (m : Mode) (csD : Bool)
    (rex : Option Rex) (bs : List Byte) :
    decodeAfterOpcode m csD ps rex bs = decodeFromModrm m csD ps rex bs := by
  have hcount : ps.count .mandatory66 = 1 := by simpa [oneMandatoryPrefix] using h66
  simp [decodeAfterOpcode, hcount, h66, h67, hseg]

/-- The parts of an instruction with the prefixes of rule R93 and an encodable operand are read back from its encoding,
whatever follows, and the length decides (`30_encoding.md` rules R80 to R95, R100). -/
theorem decode_encodeInvpcid {m : Mode} {csD : Bool} {ps : List Prefix} {rex : Option Rex} {mem : MemOperand}
    (hrex : m = .sixtyFourBit ∨ rex = none) (h66 : oneMandatoryPrefix ps = true)
    (h67 : atMostOneAddressPrefix ps = true) (hseg : atMostOneSegPrefix ps = true)
    (hsize : mem.size = addressSize m csD (addressPrefixPresent ps)) (hw : mem.wellFormed = true) (reg : BitVec 3)
    (rest : List Byte) :
    decode m csD (encodeInvpcid ps rex reg mem ++ rest) =
      if invpcidLength ps rex mem ≤ 15 then .instr (mkInstr m ps rex reg mem) rest else .refused .tooLong := by
  simp only [encodeInvpcid, List.append_assoc]
  rw [decode_prefixes_rex_opcode hrex, decodeAfterOpcode_of_prefixes h66 h67 hseg, decodeFromModrm_encode hsize hw]

/-- A well-formed instruction is read back from its encoding, whatever follows. -/
theorem decode_encode {m : Mode} {csD : Bool} {i : Instr} (hw : i.wellFormed m csD = true) (rest : List Byte) :
    decode m csD (encode i ++ rest) = .instr i rest := by
  simp only [Instr.wellFormed, Bool.and_eq_true, decide_eq_true_eq] at hw
  obtain ⟨⟨⟨⟨⟨⟨hvalid, h66⟩, h67⟩, hseg⟩, hsize⟩, hmem⟩, hlen⟩ := hw
  cases i with
  | invpcidR32 ps reg mem =>
    have hm : m ≠ .sixtyFourBit := of_decide_eq_true hvalid
    exact (decode_encodeInvpcid (.inr rfl) h66 h67 hseg hsize hmem reg rest).trans
      ((if_pos hlen).trans (by rw [mkInstr, if_neg hm]; rfl))
  | invpcidR64 ps rex reg mem =>
    have hm : m = .sixtyFourBit := of_decide_eq_true hvalid
    exact (decode_encodeInvpcid (.inl hm) h66 h67 hseg hsize hmem reg rest).trans
      ((if_pos hlen).trans (by rw [mkInstr, if_pos hm]; rfl))

theorem encode_length (i : Instr) : (encode i).length = i.length := by
  cases i with
  | invpcidR32 ps reg mem => exact Laws.EncodedLength.invpcidR32 ps reg mem
  | invpcidR64 ps rex reg mem => exact Laws.EncodedLength.invpcidR64 ps rex reg mem

theorem length_le_of_wellFormed {m : Mode} {csD : Bool} {i : Instr} (hw : i.wellFormed m csD = true) :
    i.length ≤ maxLength := by
  rw [Instr.wellFormed, Bool.and_eq_true, decide_eq_true_eq] at hw
  exact hw.2

end Sys2Proof

namespace Sys2Proof.Machine

/-! ### The fetch -/

/-- The fetch begins with the bytes that stand fetchable from byte `k` on, whatever follows them. -/
theorem fetchFrom_eq_append {s : State} {bs : List Byte} {n k : Nat} (hn : bs.length ≤ n)
    (hbytes : ∀ j < bs.length, ∃ p, fetchPhys s (k + j) = some p ∧ bs[j]? = some (s.mem.read p)) :
    ∃ rest, fetchFrom s n k = bs ++ rest := by
  induction bs generalizing n k with
  | nil => exact ⟨_, rfl⟩
  | cons b bs ih =>
    obtain ⟨n, rfl⟩ := Nat.exists_eq_add_of_le' (Nat.one_le_of_lt hn)
    obtain ⟨p, hp, hb⟩ := hbytes 0 (Nat.zero_lt_succ _)
    obtain rfl : b = s.mem.read p := Option.some.inj hb
    obtain ⟨rest, hrest⟩ : ∃ rest, fetchFrom s n (k + 1) = bs ++ rest := by
      refine ih (Nat.le_of_succ_le_succ hn) fun j hj => ?_
      rw [Nat.add_assoc, Nat.add_comm 1 j]
      exact hbytes (j + 1) (Nat.succ_lt_succ hj)
    rw [Nat.add_zero] at hp
    exact ⟨rest, by simp only [fetchFrom, hp, hrest, List.cons_append]⟩

/-! ### The step -/

theorem step_of_decode_instr {s : State} {i : Instr} {rest : List Byte}
    (h : decode s.mode s.csD (fetchBytes s) = .instr i rest) : step s = exec i s := by simp only [step, h]

theorem step_of_decode_refused {s : State} {why : DecodeRefusal}
    (h : decode s.mode s.csD (fetchBytes s) = .refused why) : step s = .refused (refusalOf why) := by
  simp only [step, h]

theorem step_of_decode_notInvpcid {s : State} (h : decode s.mode s.csD (fetchBytes s) = .notInvpcid) :
    step s = .refused .notInvpcid := by simp only [step, h]

theorem step_of_decode_incomplete {s : State} (h : decode s.mode s.csD (fetchBytes s) = .incomplete) :
    step s = .refused (incompleteRefusal (fetchBytes s).length) := by simp only [step, h]

/-- Settles O7: the decoder's answer selects the branch of the step. -/
theorem stepRunsTheDecodedInstruction : Obligations.StepRunsTheDecodedInstruction :=
  fun _ _ _ => step_of_decode_instr

/-- Settles O9: each answer of the decoder that is no instruction has its refusal, and one cut off by the fetch is told
from one past fifteen bytes by the count of bytes fetched. -/
theorem stepRefusesWhatDoesNotDecode : Obligations.StepRefusesWhatDoesNotDecode := by
  intro s
  refine ⟨step_of_decode_notInvpcid, step_of_decode_refused, step_of_decode_refused, fun h hlen => ?_, fun h hlen => ?_⟩
  · rw [step_of_decode_incomplete h, incompleteRefusal, if_pos hlen]
  · rw [step_of_decode_incomplete h, incompleteRefusal, if_neg (Nat.ne_of_lt hlen)]

/-- Settles O8: the fetched bytes begin with the encoding, which fits the longest fetch and decodes whatever follows. -/
theorem stepRunsAnInstructionStoredAtRip : Obligations.StepRunsAnInstructionStoredAtRip := by
  intro s i hw hbytes
  obtain ⟨rest, hfetch⟩ : ∃ rest, fetchBytes s = encode i ++ rest := by
    refine fetchFrom_eq_append (encode_length i ▸ length_le_of_wellFormed hw) fun j hj => ?_
    rw [Nat.zero_add]
    exact hbytes j (encode_length i ▸ hj)
  exact step_of_decode_instr (hfetch ▸ decode_encode hw rest)

end Sys2Proof.Machine
end

section
/-! SUPPORT. The other half of the round trip: what the decoder answers comes from the one byte string that encodes it
(`30_encoding.md` rules R80 to R100), and what the decoder refuses. -/

namespace Sys2Proof

/-! ### The operand a ModRM byte names -/

theorem Ea16.wellFormed_based {b : Base16} {d : Disp 16} :
    (Ea16.based b d).wellFormed = true ↔ ¬(d.mod = 0#2 ∧ b.rm = 6#3) := by
  rw [dispMod_eq_zero, rm_eq_six]
  cases b <;> cases d <;> simp [Ea16.wellFormed]

theorem EaLong.wellFormed_based {rm : BitVec 3} {d : Disp 32} :
    (EaLong.based rm d).wellFormed = true ↔ rm ≠ 4#3 ∧ ¬(d.mod = 0#2 ∧ rm = 5#3) := by
  simp only [EaLong.wellFormed, Bool.and_eq_true, Bool.or_eq_true, decide_eq_true_eq, dispMod_eq_zero]
  tauto

theorem EaLong.wellFormed_sib {scale : BitVec 2} {index base : BitVec 3} {d : Disp 32} :
    (EaLong.sib scale index base d).wellFormed = true ↔ ¬(d.mod = 0#2 ∧ base = 5#3) := by
  simp only [EaLong.wellFormed, Bool.or_eq_true, decide_eq_true_eq, dispMod_eq_zero]
  tauto

/-- What is built from a taken field is built from one that was taken. -/
theorem exists_taken_of_map_eq_some {α β : Type} {o : Option (α × List Byte)} {g : α × List Byte → β × List Byte} {y : β}
    {rest : List Byte} (h : o.map g = some (y, rest)) (f : α → β) (hg : ∀ v r, g (v, r) = (f v, r)) :
    ∃ v, o = some (v, rest) ∧ f v = y := by
  obtain ⟨⟨v, r⟩, ho, hy⟩ := Option.map_eq_some_iff.mp h
  obtain ⟨rfl, rfl⟩ := Prod.mk.inj ((hg v r).symm.trans hy)
  exact ⟨v, ho, rfl⟩

/-- A 16-bit operand that is read can be named, and was read from the bytes that encode it. -/
theorem decodeEa16_some {mod : BitVec 2} {rm : BitVec 3} {bs rest : List Byte} {ea : Ea16} (hm : mod ≠ 3#2)
    (h : decodeEa16 mod rm bs = some (ea, rest)) :
    ea.wellFormed = true ∧ ∀ reg, modrmByte mod reg rm :: bs = ea.encode reg ++ rest := by
  unfold decodeEa16 at h
  split at h
  case isTrue habsolute =>
    obtain ⟨rfl, rfl⟩ := habsolute
    obtain ⟨v, htake, rfl⟩ := exists_taken_of_map_eq_some h Ea16.absolute fun _ _ => rfl
    exact ⟨rfl, fun reg => by rw [take16_some.mp htake]; rfl⟩
  case isFalse hbased =>
    obtain ⟨d, htake, rfl⟩ := exists_taken_of_map_eq_some h (Ea16.based (base16OfRm rm)) fun _ _ => rfl
    obtain ⟨rfl, rfl⟩ := takeDisp16_some hm htake
    exact ⟨Ea16.wellFormed_based.mpr (by rwa [rm_base16OfRm]), fun reg => by simp [Ea16.encode]⟩

/-- An operand that is read after a SIB byte can be named, and was read from the bytes that encode it. -/
theorem decodeSib_some {mod : BitVec 2} {sib : Byte} {bs rest : List Byte} {ea : EaLong} (hm : mod ≠ 3#2)
    (h : decodeSib mod sib bs = some (ea, rest)) :
    ea.wellFormed = true ∧ ∀ reg, modrmByte mod reg 4#3 :: sib :: bs = ea.encode reg ++ rest := by
  have hsib : sibByte (sib.extractLsb' 6 2) (sib.extractLsb' 3 3) (sib.extractLsb' 0 3) = sib := modrmByte_eta sib
  unfold decodeSib at h
  split at h
  case isTrue hnoBase =>
    obtain ⟨rfl, hbase⟩ := hnoBase
    obtain ⟨v, htake, rfl⟩ := exists_taken_of_map_eq_some h (EaLong.sibNoBase _ _) fun _ _ => rfl
    exact ⟨rfl, fun reg => by rw [EaLong.encode, ← hbase, hsib, take32_some.mp htake]; rfl⟩
  case isFalse hbased =>
    obtain ⟨d, htake, rfl⟩ := exists_taken_of_map_eq_some h (EaLong.sib _ _ _) fun _ _ => rfl
    obtain ⟨rfl, rfl⟩ := takeDisp32_some hm htake
    exact ⟨EaLong.wellFormed_sib.mpr hbased, fun reg => by rw [EaLong.encode, hsib]; rfl⟩

/-- A 32- or 64-bit operand that is read can be named, and was read from the bytes that encode it. -/
theorem decodeEaLong_some {mod : BitVec 2} {rm : BitVec 3} {bs rest : List Byte} {ea : EaLong} (hm : mod ≠ 3#2)
    (h : decodeEaLong mod rm bs = some (ea, rest)) :
    ea.wellFormed = true ∧ ∀ reg, modrmByte mod reg rm :: bs = ea.encode reg ++ rest := by
  unfold decodeEaLong at h
  split at h
  case isTrue hsib =>
    subst hsib
    cases bs with
    | nil => cases h
    | cons sib bs => exact decodeSib_some hm h
  case isFalse hsib =>
    split at h
    case isTrue hdisp =>
      obtain ⟨rfl, rfl⟩ := hdisp
      obtain ⟨v, htake, rfl⟩ := exists_taken_of_map_eq_some h EaLong.disp32 fun _ _ => rfl
      exact ⟨rfl, fun reg => by rw [take32_some.mp htake]; rfl⟩
    case isFalse hdisp =>
      obtain ⟨d, htake, rfl⟩ := exists_taken_of_map_eq_some h (EaLong.based rm) fun _ _ => rfl
      obtain ⟨rfl, rfl⟩ := takeDisp32_some hm htake
      exact ⟨EaLong.wellFormed_based.mpr ⟨hsib, hdisp⟩, fun reg => rfl⟩

/-- A memory operand that is read has the address size it was read for, can be named, and was read from the bytes that
encode it. -/
theorem decodeMem_some {size : AddrSize} {mod : BitVec 2} {rm : BitVec 3} {bs rest : List Byte} {mem : MemOperand}
    (hm : mod ≠ 3#2) (h : decodeMem size mod rm bs = some (mem, rest)) :
    mem.size = size ∧ mem.wellFormed = true ∧ ∀ reg, modrmByte mod reg rm :: bs = mem.encode reg ++ rest := by
  cases size with
  | a16 =>
    obtain ⟨ea, hdec, rfl⟩ := exists_taken_of_map_eq_some h MemOperand.addr16 fun _ _ => rfl
    exact ⟨rfl, decodeEa16_some hm hdec⟩
  | a32 =>
    obtain ⟨ea, hdec, rfl⟩ := exists_taken_of_map_eq_some h MemOperand.addr32 fun _ _ => rfl
    exact ⟨rfl, decodeEaLong_some hm hdec⟩
  | a64 =>
    obtain ⟨ea, hdec, rfl⟩ := exists_taken_of_map_eq_some h MemOperand.addr64 fun _ _ => rfl
    exact ⟨rfl, decodeEaLong_some hm hdec⟩

/-! ### The parts of an instruction that the encoding admits -/

/-- The parts of a byte string that is an INVPCID in a mode and code segment: one check for each of `30_encoding.md` rules
R84 to R94. `wellFormed_mkInstr` ties it to `Instr.wellFormed`. -/
structure Encodable (m : Mode) (csD : Bool) (ps : List Prefix) (rex : Option Rex) (mem : MemOperand) : Prop where
  rexIn64Only : m = .sixtyFourBit ∨ rex = none
  one66 : oneMandatoryPrefix ps = true
  atMostOne67 : atMostOneAddressPrefix ps = true
  atMostOneSeg : atMostOneSegPrefix ps = true
  sizeOfMode : mem.size = addressSize m csD (addressPrefixPresent ps)
  namable : mem.wellFormed = true
  lengthLe : invpcidLength ps rex mem ≤ 15

/-- The form that the mode selects is valid in it, and keeps the parts it is made of (`30_encoding.md` rule R95). -/
theorem mkInstr_parts {m : Mode} {rex : Option Rex} (hrex : m = .sixtyFourBit ∨ rex = none) (ps : List Prefix)
    (reg : BitVec 3) (mem : MemOperand) :
    (mkInstr m ps rex reg mem).validIn m = true ∧ (mkInstr m ps rex reg mem).prefixes = ps ∧
      (mkInstr m ps rex reg mem).mem = mem ∧ (mkInstr m ps rex reg mem).length = invpcidLength ps rex mem ∧
      encode (mkInstr m ps rex reg mem) = encodeInvpcid ps rex reg mem := by
  by_cases hm : m = .sixtyFourBit
  · rw [mkInstr, if_pos hm]
    exact ⟨decide_eq_true hm, rfl, rfl, rfl, rfl⟩
  · obtain rfl : rex = none := hrex.resolve_left hm
    rw [mkInstr, if_neg hm]
    exact ⟨decide_eq_true hm, rfl, rfl, rfl, rfl⟩

theorem wellFormed_mkInstr {m : Mode} {csD : Bool} {ps : List Prefix} {rex : Option Rex} {mem : MemOperand}
    (h : Encodable m csD ps rex mem) (reg : BitVec 3) : (mkInstr m ps rex reg mem).wellFormed m csD = true := by
  obtain ⟨hvalid, hps, hmem, hlen, -⟩ := mkInstr_parts h.rexIn64Only ps reg mem
  simp [Instr.wellFormed, hvalid, hps, hmem, hlen, h.one66, h.atMostOne67, h.atMostOneSeg, h.sizeOfMode, h.namable,
    h.lengthLe]

/-! ### What an answer of the decoder says of the string -/

/-- From ModRM on: an instruction is answered for an operand of the mode's address size, within the length. -/
theorem decodeFromModrm_instr {m : Mode} {csD : Bool} {ps : List Prefix} {rex : Option Rex} {bs rest : List Byte}
    {i : Instr} (h : decodeFromModrm m csD ps rex bs = .instr i rest) :
    ∃ reg mem, i = mkInstr m ps rex reg mem ∧ mem.size = addressSize m csD (addressPrefixPresent ps) ∧
      mem.wellFormed = true ∧ invpcidLength ps rex mem ≤ 15 ∧ bs = mem.encode reg ++ rest := by
  cases bs with
  | nil => cases h
  | cons modrm bs =>
    rw [decodeFromModrm] at h
    split at h
    · cases h
    · rename_i hmod
      split at h
      · cases h
      · rename_i mem r hmem
        obtain ⟨hsize, hw, henc⟩ := decodeMem_some hmod hmem
        split at h
        · rename_i hlen
          cases h
          exact ⟨_, mem, rfl, hsize, hw, hlen, by rw [← henc, modrmByte_eta]⟩
        · cases h

/-- After the opcode: an instruction is answered with the prefixes of rule R93 only. -/
theorem decodeAfterOpcode_instr {m : Mode} {csD : Bool} {ps : List Prefix} {rex : Option Rex} {bs rest : List Byte}
    {i : Instr} (h : decodeAfterOpcode m csD ps rex bs = .instr i rest) :
    oneMandatoryPrefix ps = true ∧ atMostOneAddressPrefix ps = true ∧ atMostOneSegPrefix ps = true ∧
      decodeFromModrm m csD ps rex bs = .instr i rest := by
  unfold decodeAfterOpcode at h
  split at h
  · cases h
  · split at h
    · rename_i hps
      simp only [Bool.and_eq_true] at hps
      obtain ⟨⟨h66, h67⟩, hseg⟩ := hps
      exact ⟨h66, h67, hseg, h⟩
    · cases h

/-- An instruction is answered for the three opcode bytes only. -/
theorem decodeOpcode_instr {m : Mode} {csD : Bool} {ps : List Prefix} {rex : Option Rex} {bs rest : List Byte} {i : Instr}
    (h : decodeOpcode m csD ps rex bs = .instr i rest) :
    ∃ tail, bs = opcodeBytes ++ tail ∧ decodeAfterOpcode m csD ps rex tail = .instr i rest := by
  unfold decodeOpcode at h
  split at h
  · split at h
    · rename_i hop
      obtain ⟨rfl, rfl, rfl⟩ := hop
      exact ⟨_, rfl, h⟩
    · cases h
  · split at h <;> cases h

/-- The REX byte that is taken stands at the head of the string, in 64-bit mode only (`30_encoding.md` rule R92). -/
theorem takeRex_spec (m : Mode) (bs : List Byte) :
    (m = .sixtyFourBit ∨ (takeRex m bs).1 = none) ∧ bs = encodeRex (takeRex m bs).1 ++ (takeRex m bs).2 := by
  unfold takeRex
  split
  · refine ⟨.inl rfl, ?_⟩
    split
    · rename_i x hx
      rw [encodeRex, byte_of_rexOfByte hx]
      rfl
    · rfl
  · exact ⟨.inr rfl, rfl⟩

/-- WHAT A DECODED STRING IS: the encoding of parts that the encoding admits, and the bytes left over. -/
theorem decode_instr {m : Mode} {csD : Bool} {bs rest : List Byte} {i : Instr} (h : decode m csD bs = .instr i rest) :
    ∃ ps rex reg mem, Encodable m csD ps rex mem ∧ i = mkInstr m ps rex reg mem ∧
      bs = encodeInvpcid ps rex reg mem ++ rest := by
  obtain ⟨hprefixes, -⟩ := takePrefixes_spec bs
  obtain ⟨hrex, hrexBytes⟩ := takeRex_spec m (takePrefixes bs).2
  obtain ⟨tail, hopcode, hafter⟩ := decodeOpcode_instr h
  obtain ⟨h66, h67, hseg, hmodrm⟩ := decodeAfterOpcode_instr hafter
  obtain ⟨reg, mem, hi, hsize, hw, hlen, htail⟩ := decodeFromModrm_instr hmodrm
  refine ⟨_, _, reg, mem, ⟨hrex, h66, h67, hseg, hsize, hw, hlen⟩, hi, ?_⟩
  simp only [encodeInvpcid, List.append_assoc]
  rw [← htail, ← hopcode, ← hrexBytes, ← hprefixes]

/-- What decodes is well-formed, and was read from its encoding. -/
theorem wellFormed_and_eq_encode_of_decode {m : Mode} {csD : Bool} {bs rest : List Byte} {i : Instr}
    (h : decode m csD bs = .instr i rest) : i.wellFormed m csD = true ∧ bs = encode i ++ rest := by
  obtain ⟨ps, rex, reg, mem, hparts, rfl, hbs⟩ := decode_instr h
  obtain ⟨-, -, -, -, henc⟩ := mkInstr_parts hparts.rexIn64Only ps reg mem
  exact ⟨wellFormed_mkInstr hparts reg, henc ▸ hbs⟩

/-- The form of what decodes is the one of the mode. -/
theorem validIn_of_decode {m : Mode} {csD : Bool} {bs rest : List Byte} {i : Instr}
    (h : decode m csD bs = .instr i rest) : i.validIn m = true := by
  obtain ⟨ps, rex, reg, mem, hparts, rfl, -⟩ := decode_instr h
  obtain ⟨hvalid, -⟩ := mkInstr_parts hparts.rexIn64Only ps reg mem
  exact hvalid

/-- Settles O1: each part of an instruction is read back from the bytes it is written as. -/
theorem decodeOfEncodeIsTheInstruction : Obligations.DecodeOfEncodeIsTheInstruction :=
  fun _ _ _ rest hw => decode_encode hw rest

/-- Settles O2: each part that is read stands in the string as the encoder writes it. -/
theorem decodedStringIsTheEncoding : Obligations.DecodedStringIsTheEncoding :=
  fun _ _ _ _ _ => wellFormed_and_eq_encode_of_decode

/-- The mandatory `66`, the three opcode bytes and ModRM are five bytes. -/
theorem five_le_invpcidLength {ps : List Prefix} (h66 : oneMandatoryPrefix ps = true) (rex : Option Rex)
    (mem : MemOperand) : 5 ≤ invpcidLength ps rex mem := by
  have hcount : ps.count .mandatory66 = 1 := by simpa [oneMandatoryPrefix] using h66
  have hle : ps.count .mandatory66 ≤ ps.length := List.count_le_length
  unfold invpcidLength
  omega

/-- Settles O3: the encoding has as many bytes as the instruction is long, and the `66` is one of at least five. -/
theorem decodedLengthIsFiveToFifteen : Obligations.DecodedLengthIsFiveToFifteen := by
  intro m csD bs i rest h
  obtain ⟨hw, hbs⟩ := wellFormed_and_eq_encode_of_decode h
  obtain ⟨ps, rex, reg, mem, hparts, rfl, -⟩ := decode_instr h
  obtain ⟨-, -, -, hlen, -⟩ := mkInstr_parts hparts.rexIn64Only ps reg mem
  refine ⟨by rw [hbs, List.length_append, encode_length], ?_, length_le_of_wellFormed hw⟩
  rw [hlen]
  exact five_le_invpcidLength hparts.one66 rex mem

/-! ### What is refused -/

theorem decodeAfterOpcode_of_no66 {ps : List Prefix} (h : ps.count .mandatory66 = 0) (m : Mode) (csD : Bool)
    (rex : Option Rex) (bs : List Byte) : decodeAfterOpcode m csD ps rex bs = .notInvpcid := if_pos h

/-- After the opcode, with a `66` but outside the prefixes of rule R93, the string is refused. -/
theorem decodeAfterOpcode_of_badPrefixes {ps : List Prefix}
    (h : ps.count .mandatory66 > 1 ∨
      (ps.count .mandatory66 = 1 ∧ (ps.count .addressSize67 > 1 ∨ ps.countP Prefix.isSeg > 1)))
    (m : Mode) (csD : Bool) (rex : Option Rex) (bs : List Byte) :
    decodeAfterOpcode m csD ps rex bs = .refused .prefixes := by
  have hsome : ps.count .mandatory66 ≠ 0 := by omega
  have hbad : ¬(oneMandatoryPrefix ps && atMostOneAddressPrefix ps && atMostOneSegPrefix ps) = true := by
    simp only [oneMandatoryPrefix, atMostOneAddressPrefix, atMostOneSegPrefix, Bool.and_eq_true, beq_iff_eq,
      decide_eq_true_eq]
    omega
  rw [decodeAfterOpcode, if_neg hsome, if_neg hbad]

theorem decodeFromModrm_of_register {modrm : Byte} (h : modrm.extractLsb' 6 2 = 3#2) (m : Mode) (csD : Bool)
    (ps : List Prefix) (rex : Option Rex) (bs : List Byte) :
    decodeFromModrm m csD ps rex (modrm :: bs) = .refused .registerOperand := if_pos h

/-- Where REX is not read, the first byte after the prefixes must be the first opcode byte. -/
theorem decodeOpcode_of_head_ne {b : Byte} (h : b ≠ 0x0F#8) (m : Mode) (csD : Bool) (ps : List Prefix)
    (rex : Option Rex) (bs : List Byte) : decodeOpcode m csD ps rex (b :: bs) = .notInvpcid := by
  match bs with
  | [] | [_] | _ :: _ :: _ => simp [decodeOpcode, opcodeBytes, h]

/-- Outside 64-bit mode a byte 40 to 4F after the prefixes is not read as REX (`30_encoding.md` rule R92). -/
theorem decode_rexByte_of_ne_sixtyFourBit {m : Mode} (hm : m ≠ .sixtyFourBit) (csD : Bool) (ps : List Prefix) (x : Rex)
    (bs : List Byte) : decode m csD (ps.map Prefix.byte ++ x.byte :: bs) = .notInvpcid := by
  have hhead : NoPrefixHead (x.byte :: bs) := by simpa [NoPrefixHead] using rexByte_noPrefix x
  have hrex : takeRex m (x.byte :: bs) = (none, x.byte :: bs) := by
    cases m with
    | sixtyFourBit => exact absurd rfl hm
    | _ => rfl
  have hne : x.byte ≠ 0x0F#8 := fun h => by simpa [h, rexOfByte_0F] using rexOfByte_byte x
  rw [decode, takePrefixes_append ps hhead, hrex, decodeOpcode_of_head_ne hne]

/-- The counts of `30_encoding.md` rule R93 as the checks of the decoder. -/
theorem prefixChecks_of_counts {ps : List Prefix} (h66 : ps.count .mandatory66 = 1) (h67 : ps.count .addressSize67 ≤ 1)
    (hseg : ps.countP Prefix.isSeg ≤ 1) :
    oneMandatoryPrefix ps = true ∧ atMostOneAddressPrefix ps = true ∧ atMostOneSegPrefix ps = true :=
  ⟨beq_iff_eq.mpr h66, decide_eq_true h67, decide_eq_true hseg⟩

/-- Settles O5: prefixes, REX and opcode are read as written, and the first check that fails after them answers. -/
theorem badPrefixesAndRegisterOperandRefused : Obligations.BadPrefixesAndRegisterOperandRefused := by
  intro m csD ps rex modrm bs
  refine ⟨fun hm x => decode_rexByte_of_ne_sixtyFourBit hm csD ps x bs, fun hrex => ?_⟩
  rw [decode_prefixes_rex_opcode hrex]
  refine ⟨fun h => ?_, fun h => ?_, fun h66 h67 hseg hmod => ?_⟩
  · exact decodeAfterOpcode_of_no66 h m csD rex _
  · exact decodeAfterOpcode_of_badPrefixes h m csD rex _
  · obtain ⟨hone, haddr, hsegs⟩ := prefixChecks_of_counts h66 h67 hseg
    rw [decodeAfterOpcode_of_prefixes hone haddr hsegs, decodeFromModrm_of_register hmod]

/-- Settles O56: everything but the length is read back, and the length is past fifteen. -/
theorem overlongInvpcidRefused : Obligations.OverlongInvpcidRefused := by
  intro m csD ps rex reg mem rest hrex h66 h67 hseg hsize hw hlen
  obtain ⟨hone, haddr, hsegs⟩ := prefixChecks_of_counts h66 h67 hseg
  rw [decode_encodeInvpcid hrex hone haddr hsegs hsize hw, if_neg (Nat.not_le_of_lt hlen)]

/-- Settles O6: each word is run through the decoder. -/
theorem writtenOutWordsDecode : Obligations.WrittenOutWordsDecode := by
  unfold Obligations.WrittenOutWordsDecode
  decide

end Sys2Proof

namespace Sys2Proof.Machine

/-! ### The form that the mode selects -/

/-- The type operand of the r32 form is the low 32 bits of its register. -/
theorem typeR32_toNat (s : State) (reg : BitVec 3) :
    (typeR32 s reg).toNat = (x64 s (regNumber false reg)).toNat % 2 ^ 32 := by
  rw [typeR32, BitVec.toNat_setWidth_of_le (by decide), x32_toNat]

/-- Settles O4: what decodes is valid in the mode, and the mode admits one form. -/
theorem modeAloneSelectsTheForm : Obligations.ModeAloneSelectsTheForm := by
  intro m csD bs i rest h
  have hvalid := validIn_of_decode h
  cases i with
  | invpcidR32 ps reg mem =>
    have hm : m ≠ .sixtyFourBit := of_decide_eq_true hvalid
    exact ⟨fun h64 => absurd h64 hm, fun _ => ⟨ps, reg, mem, rfl, fun s => typeR32_toNat s reg⟩, hvalid⟩
  | invpcidR64 ps rex reg mem =>
    have hm : m = .sixtyFourBit := of_decide_eq_true hvalid
    exact ⟨fun _ => ⟨ps, rex, reg, mem, rfl, fun _ => rfl⟩, fun h64 => absurd hm h64, hvalid⟩

/-- Settles O35: the form is tested first. -/
theorem formOfAnotherModeRefused : Obligations.FormOfAnotherModeRefused := by
  intro i s h
  rw [exec_eq, if_neg (Bool.eq_false_iff.mp h)]

end Sys2Proof.Machine
end

section
/-! SUPPORT. The address of the memory operand: its segment (`30_encoding.md` rules R85 to R87, R90) and its effective address,
which is an integer sum taken modulo the address size (rules R85 to R88). -/

namespace Sys2Proof.Machine

/-! ### The segment -/

theorem operandSeg_of_effective {m : Mode} {ps : List Prefix} {r : SegReg} (h : segOverride ps = some r)
    (he : overrideEffective m r = true) (rex : Option Rex) (mem : MemOperand) : operandSeg m ps rex mem = r := by
  simp only [operandSeg, h, he, if_true]

theorem operandSeg_of_ineffective {m : Mode} {ps : List Prefix} {r : SegReg} (h : segOverride ps = some r)
    (he : overrideEffective m r = false) (rex : Option Rex) (mem : MemOperand) :
    operandSeg m ps rex mem = defaultSeg rex mem := by
  simp only [operandSeg, h, he, Bool.false_eq_true, if_false]

theorem operandSeg_of_noOverride {ps : List Prefix} (h : segOverride ps = none) (m : Mode) (rex : Option Rex)
    (mem : MemOperand) : operandSeg m ps rex mem = defaultSeg rex mem := by
  simp only [operandSeg, h]

/-- A base register numbered 4 or 5 is one of the field 100 or 101 without REX.B. -/
theorem segOfBase_regNumber : ∀ (ext : Bool) (field : BitVec 3),
    segOfBase (regNumber ext field) = if ext = false ∧ (field = 4#3 ∨ field = 5#3) then .ss else .ds := by decide

theorem defaultSeg16_based (b : Base16) (d : Disp 16) :
    defaultSeg16 (.based b d) = if b = .bpSi ∨ b = .bpDi ∨ b = .bp then .ss else .ds := by cases b <;> rfl

/-- The default segment does not depend on whether the address has 32 or 64 bits. -/
theorem defaultSeg_long {long : EaLong → MemOperand} (h : long = .addr32 ∨ long = .addr64) (rex : Option Rex) (ea : EaLong) :
    defaultSeg rex (long ea) = defaultSegLong rex ea := by
  obtain rfl | rfl := h <;> rfl

/-- Settles O51: whether the override is effective, then the default by the shape of the operand. -/
theorem operandSegmentRules : Obligations.OperandSegmentRules := by
  intro m ps rex mem r
  refine ⟨fun h hm => operandSeg_of_effective h (by simp [overrideEffective, hm]) rex mem,
    fun h _ hr => operandSeg_of_effective h (by obtain rfl | rfl := hr <;> simp [overrideEffective]) rex mem,
    fun h hm hfs hgs => operandSeg_of_ineffective h (by simp [overrideEffective, hm, hfs, hgs]) rex mem,
    fun h => operandSeg_of_noOverride h m rex mem, fun b d => defaultSeg16_based b d, fun _ => rfl, fun long hlong => ?_⟩
  simp only [defaultSeg_long hlong]
  exact ⟨fun rm _ => segOfBase_regNumber (rexB rex) rm, fun _ _ b _ => segOfBase_regNumber (rexB rex) b,
    fun _ _ _ => rfl, fun _ => rfl⟩

/-! ### Words that stand for an integer modulo their size -/

/-- The word is the integer modulo two to its width. -/
def Denotes {w : Nat} (x : BitVec w) (z : Int) : Prop := (x.toNat : Int) = z % 2 ^ w

theorem denotes_toNat {w : Nat} (x : BitVec w) : Denotes x x.toNat := by
  unfold Denotes
  exact_mod_cast (Nat.mod_eq_of_lt x.isLt).symm

theorem Denotes.toNat_eq_mod {w n : Nat} {x : BitVec w} (h : Denotes x n) : x.toNat = n % 2 ^ w := by
  unfold Denotes at h
  exact_mod_cast h

theorem denotes_ofNat (w n : Nat) : Denotes (BitVec.ofNat w n) n := by
  simp [Denotes]

theorem denotes_ofInt (w : Nat) (z : Int) : Denotes (BitVec.ofInt w z) z := by
  have hpos : (0 : Int) < 2 ^ w := Int.pow_pos (by decide)
  rw [Denotes, BitVec.toNat_ofInt, Int.toNat_of_nonneg]
  · simp
  · simpa using Int.emod_nonneg z hpos.ne'

/-- Sign extension keeps the signed number (`30_encoding.md` rule R88). -/
theorem denotes_signExtend {v : Nat} (w : Nat) (x : BitVec v) : Denotes (x.signExtend w) x.toInt := denotes_ofInt w x.toInt

theorem denotes_toInt {w : Nat} (x : BitVec w) : Denotes x x.toInt := by
  simpa using denotes_signExtend w x

section
variable {w : Nat} {x y : BitVec w} {a b : Int}

theorem Denotes.add (hx : Denotes x a) (hy : Denotes y b) : Denotes (x + y) (a + b) := by
  unfold Denotes at *
  rw [BitVec.toNat_add]
  push_cast
  rw [hx, hy, ← Int.add_emod]

theorem Denotes.shiftLeft (hx : Denotes x a) (k : Nat) : Denotes (x <<< k) (a * 2 ^ k) := by
  unfold Denotes at *
  rw [BitVec.toNat_shiftLeft, Nat.shiftLeft_eq]
  push_cast
  rw [hx]
  exact (Int.mod_modEq a (2 ^ w)).mul_right (2 ^ k)

/-- The low bits of a word are the integer modulo the smaller power. -/
theorem Denotes.setWidth (hx : Denotes x a) {n : Nat} (hn : n ≤ w) : Denotes (x.setWidth n) a := by
  unfold Denotes at *
  rw [BitVec.toNat_setWidth]
  push_cast
  rw [hx, Int.emod_emod_of_dvd a (pow_dvd_pow 2 hn)]

end

/-! ### The parts of an effective address -/

theorem denotes_x16 (s : State) (n : BitVec 4) : Denotes (x16 s n) (x64 s n).toNat :=
  (denotes_toNat (x64 s n)).setWidth (n := 16) (by decide)

theorem denotes_x32 (s : State) (n : BitVec 4) : Denotes (x32 s n) (x64 s n).toNat :=
  (denotes_toNat (x64 s n)).setWidth (n := 32) (by decide)

theorem denotes_disp16Value (d : Disp 16) : Denotes (disp16Value d) (signedDisp d) := by
  cases d with
  | none => rfl
  | short v => exact denotes_signExtend 16 v
  | long v => exact denotes_toInt v

theorem denotes_disp32Value (d : Disp 32) : Denotes (disp32Value d) (signedDisp d) := by
  cases d with
  | none => rfl
  | short v => exact denotes_signExtend 32 v
  | long v => exact denotes_toInt v

theorem denotes_disp64Value (d : Disp 32) : Denotes (disp64Value d) (signedDisp d) := by
  cases d with
  | none => rfl
  | short v => exact denotes_signExtend 64 v
  | long v => exact denotes_signExtend 64 v

/-- The low 32 bits of the next instruction pointer. -/
theorem denotes_nextIp32 (s : State) (len : Nat) :
    Denotes ((s.rip + BitVec.ofNat 64 len).setWidth 32) (s.rip.toNat + len : Nat) := by
  rw [Nat.cast_add]
  exact ((denotes_toNat s.rip).add (denotes_ofNat 64 len)).setWidth (by decide)

/-- The index term before it is taken modulo the address size: none when `X ++ index = 0100` (`30_encoding.md` rule R87). -/
def indexValue (s : State) (rex : Option Rex) (scale : BitVec 2) (index : BitVec 3) : Int :=
  if regNumber (rexX rex) index = 4#4 then 0 else (x64 s (regNumber (rexX rex) index)).toNat * 2 ^ scale.toNat

theorem denotes_indexTerm32 (s : State) (rex : Option Rex) (scale : BitVec 2) (index : BitVec 3) :
    Denotes (indexTerm32 s rex scale index) (indexValue s rex scale index) := by
  unfold indexTerm32 indexValue
  split
  · rfl
  · exact (denotes_x32 s _).shiftLeft scale.toNat

theorem denotes_indexTerm64 (s : State) (rex : Option Rex) (scale : BitVec 2) (index : BitVec 3) :
    Denotes (indexTerm64 s rex scale index) (indexValue s rex scale index) := by
  unfold indexTerm64 indexValue
  split
  · rfl
  · exact (denotes_toNat (x64 s _)).shiftLeft scale.toNat

/-! ### 32- and 64-bit addressing -/

/-- The sum a 32- or 64-bit operand stands for in 64-bit mode, before it is taken modulo the address size
(`30_encoding.md` rules R86, R87). -/
def longSum (s : State) (rex : Option Rex) (len : Nat) : EaLong → Int
  | .based rm d => (x64 s (regNumber (rexB rex) rm)).toNat + signedDisp d
  | .disp32 v => s.rip.toNat + len + v.toInt
  | .sib scale index base d =>
    (x64 s (regNumber (rexB rex) base)).toNat + indexValue s rex scale index + signedDisp d
  | .sibNoBase scale index v => indexValue s rex scale index + v.toInt

theorem effAddr_addr16_toNat (s : State) (rex : Option Rex) (len : Nat) (ea : Ea16) :
    (effAddr s rex len (.addr16 ea)).toNat = (effAddr16 s ea).toNat := BitVec.toNat_setWidth_of_le (by decide)

theorem effAddr_addr32_toNat (s : State) (rex : Option Rex) (len : Nat) (ea : EaLong) :
    (effAddr s rex len (.addr32 ea)).toNat = (effAddr32 s rex len ea).toNat := BitVec.toNat_setWidth_of_le (by decide)

/-- A bare `d32` outside 64-bit mode is the address itself (`30_encoding.md` rule R86). -/
theorem effAddr32_disp32 {s : State} (hm : s.mode ≠ .sixtyFourBit) (rex : Option Rex) (len : Nat) (v : BitVec 32) :
    effAddr32 s rex len (.disp32 v) = v := if_neg hm

/-- A bare `d32` in 64-bit mode is relative to the next instruction (`30_encoding.md` rule R87). -/
theorem effAddr32_disp32_sixtyFourBit {s : State} (hm : s.mode = .sixtyFourBit) (rex : Option Rex) (len : Nat)
    (v : BitVec 32) :
    effAddr32 s rex len (.disp32 v) = (s.rip + BitVec.ofNat 64 len).setWidth 32 + v := if_pos hm

/-- A 64-bit effective address is the sum of its operand modulo 2^64. -/
theorem denotes_effAddr64 (s : State) (rex : Option Rex) (len : Nat) (ea : EaLong) :
    Denotes (effAddr64 s rex len ea) (longSum s rex len ea) := by
  cases ea with
  | based rm d => exact (denotes_toNat _).add (denotes_disp64Value d)
  | disp32 v => exact ((denotes_toNat _).add (denotes_ofNat 64 len)).add (denotes_signExtend 64 v)
  | sib scale index base d =>
    exact ((denotes_toNat _).add (denotes_indexTerm64 s rex scale index)).add (denotes_disp64Value d)
  | sibNoBase scale index v => exact (denotes_indexTerm64 s rex scale index).add (denotes_signExtend 64 v)

/-- A 32-bit effective address is the sum of its operand modulo 2^32; a bare `d32` has that sum in 64-bit mode only. -/
theorem denotes_effAddr32 {s : State} {ea : EaLong} (h : s.mode = .sixtyFourBit ∨ ∀ v, ea ≠ .disp32 v)
    (rex : Option Rex) (len : Nat) : Denotes (effAddr32 s rex len ea) (longSum s rex len ea) := by
  cases ea with
  | based rm d => exact (denotes_x32 s _).add (denotes_disp32Value d)
  | disp32 v =>
    have hm : s.mode = .sixtyFourBit := h.resolve_right fun hne => hne v rfl
    rw [effAddr32_disp32_sixtyFourBit hm]
    exact (denotes_nextIp32 s len).add (denotes_toInt v)
  | sib scale index base d =>
    exact ((denotes_x32 s _).add (denotes_indexTerm32 s rex scale index)).add (denotes_disp32Value d)
  | sibNoBase scale index v => exact (denotes_indexTerm32 s rex scale index).add (denotes_toInt v)

theorem effAddr_addr64_toNat (s : State) (rex : Option Rex) (len : Nat) (ea : EaLong) :
    ((effAddr s rex len (.addr64 ea)).toNat : Int) = longSum s rex len ea % 2 ^ 64 := denotes_effAddr64 s rex len ea

theorem effAddr_addr32_eq_longSum {s : State} {ea : EaLong} (h : s.mode = .sixtyFourBit ∨ ∀ v, ea ≠ .disp32 v)
    (rex : Option Rex) (len : Nat) :
    ((effAddr s rex len (.addr32 ea)).toNat : Int) = longSum s rex len ea % 2 ^ 32 := by
  rw [effAddr_addr32_toNat]
  exact denotes_effAddr32 h rex len

/-- Settles O52: the sum of each shape of operand, with the index term or without it. -/
theorem effectiveAddress64Formula : Obligations.EffectiveAddress64Formula := by
  intro s rex len sc ix b d v
  have hsum := effAddr_addr64_toNat s rex len
  refine ⟨hsum (.based b d), fun hix => ?_, fun hix => ?_, hsum (.disp32 v)⟩
  · simp [hsum, longSum, indexValue, hix]
  · simp [hsum, longSum, indexValue, hix]

/-- Settles O55: the same sums modulo 2^32, but for a bare `d32` outside 64-bit mode. -/
theorem effectiveAddress32Formula : Obligations.EffectiveAddress32Formula := by
  intro s rex len sc ix b d v
  have hbased := effAddr_addr32_eq_longSum (s := s) (ea := .based b d) (.inr nofun) rex len
  have hsib := effAddr_addr32_eq_longSum (s := s) (ea := .sib sc ix b d) (.inr nofun) rex len
  have hnoBase := effAddr_addr32_eq_longSum (s := s) (ea := .sibNoBase sc ix v) (.inr nofun) rex len
  rw [hsib, hnoBase]
  refine ⟨hbased, fun hix => ?_, fun hix => ?_, fun hm => ?_, fun hm => effAddr_addr32_eq_longSum (.inl hm) rex len⟩
  · simp [longSum, indexValue, hix]
  · simp [longSum, indexValue, hix]
  · rw [effAddr_addr32_toNat, effAddr32_disp32 hm]

/-- Settles O53: an address of 16 or 32 bits is extended with zeros, and a bare `d32` is relative in 64-bit mode only. -/
theorem effectiveAddressStaysInItsSize : Obligations.EffectiveAddressStaysInItsSize := by
  intro s rex len mem v
  refine ⟨?_, fun hm => ?_, fun hm => ?_⟩
  · cases mem with
    | addr16 ea => exact effAddr_addr16_toNat s rex len ea ▸ (effAddr16 s ea).isLt
    | addr32 ea => exact effAddr_addr32_toNat s rex len ea ▸ (effAddr32 s rex len ea).isLt
    | addr64 ea => exact (effAddr64 s rex len ea).isLt
  · rw [effAddr_addr32_toNat, effAddr32_disp32 hm]
  · rw [effAddr_addr32_toNat, effAddr32_disp32_sixtyFourBit hm]
    exact ((denotes_nextIp32 s len).add (denotes_toNat v)).toNat_eq_mod

/-! ### 16-bit addressing -/

/-- The sum a 16-bit base combination stands for (`30_encoding.md` rule R85). -/
def base16Sum (s : State) : Base16 → Int
  | .bxSi => (readReg s .rbx).toNat + (readReg s .rsi).toNat
  | .bxDi => (readReg s .rbx).toNat + (readReg s .rdi).toNat
  | .bpSi => (readReg s .rbp).toNat + (readReg s .rsi).toNat
  | .bpDi => (readReg s .rbp).toNat + (readReg s .rdi).toNat
  | .si => (readReg s .rsi).toNat
  | .di => (readReg s .rdi).toNat
  | .bp => (readReg s .rbp).toNat
  | .bx => (readReg s .rbx).toNat

/-- The registers of the fields 3, 5, 6 and 7 are BX, BP, SI and DI. -/
theorem denotes_base16Value (s : State) (b : Base16) : Denotes (base16Value s b) (base16Sum s b) := by
  have hbx := denotes_x16 s 3
  have hbp := denotes_x16 s 5
  have hsi := denotes_x16 s 6
  have hdi := denotes_x16 s 7
  cases b with
  | bxSi => exact hbx.add hsi
  | bxDi => exact hbx.add hdi
  | bpSi => exact hbp.add hsi
  | bpDi => exact hbp.add hdi
  | si => exact hsi
  | di => exact hdi
  | bp => exact hbp
  | bx => exact hbx

/-- Settles O54: the registers of the base combination and the signed displacement, modulo 2^16. -/
theorem effectiveAddress16Formula : Obligations.EffectiveAddress16Formula := by
  intro s rex len d v
  have hbased (b : Base16) :
      ((effAddr s rex len (.addr16 (.based b d))).toNat : Int) = (base16Sum s b + signedDisp d) % 2 ^ 16 := by
    rw [effAddr_addr16_toNat]
    exact (denotes_base16Value s b).add (denotes_disp16Value d)
  exact ⟨hbased .bxSi, hbased .bxDi, hbased .bpSi, hbased .bpDi, hbased .si, hbased .di, hbased .bp, hbased .bx,
    effAddr_addr16_toNat s rex len (.absolute v)⟩

end Sys2Proof.Machine
end

section
/-! SUPPORT. An execution whose operand was read: the checks of its operands (`40_invpcid.md` rule R124), its completion, and
what each must-set leaves in the caches (rules R125 to R130). -/

namespace Sys2Proof.Machine

/-! ### The checks of the operands -/

theorem namesPcid_eq_false {type : Word} {d : Descriptor} :
    namesPcid type d = false ↔ (type = 0#64 ∨ type = 1#64 → descPcid d = 0#12) := by
  simp [namesPcid]

/-- The failed checks of `40_invpcid.md` rule R124, in its order: type, reserved bits, PCID, linear address. -/
def FailsACheck (s : State) (type : Word) (d : Descriptor) : Prop :=
  type > 3#64 ∨ descReserved d ≠ 0#52 ∨
    (s.cr4Pcide = false ∧ (type = 0#64 ∨ type = 1#64) ∧ descPcid d ≠ 0#12) ∨
    (type = 0#64 ∧ canonical s.cfg.laWidthDesc (descLinear d) = false)

/-- The conditions GP7 to GP10 are the four checks. -/
theorem operandConditions_eq_nil {s : State} {type : Word} {d : Descriptor} :
    typeConditions type ++ valueConditions s type d = [] ↔ ¬ FailsACheck s type d := by
  rw [List.append_eq_nil_iff, typeConditions_eq_nil, valueConditions_eq_nil, namesPcid_eq_false, FailsACheck]
  simp only [not_or, not_and, not_not, gt_iff_lt, BitVec.not_lt, Bool.not_eq_false]

/-- A failed check raises `#GP`, and so does every condition raised beside it. -/
theorem afterRead_of_failsACheck {s : State} {type : Word} {d : Descriptor} (h : FailsACheck s type d) (len : Nat) :
    afterRead s [] type d len = .fault (gpFault s.mode) := by
  have hne : typeConditions type ++ valueConditions s type d ≠ [] := fun hnil => operandConditions_eq_nil.mp hnil h
  obtain ⟨c, more, hc⟩ := List.exists_cons_of_ne_nil hne
  have hfault (x : Condition) (hx : x ∈ c :: more) : x.fault s.mode = gpFault s.mode := by
    obtain hx | hx := List.mem_append.mp (hc ▸ hx)
    · exact fault_of_mem_typeConditions hx _
    · exact fault_of_mem_valueConditions hx _
  rw [afterRead, List.nil_append, hc]
  refine raise_of_all_same fun x hx => ?_
  obtain hx | hx := List.mem_append.mp (List.cons_append ▸ hx)
  · exact hfault x hx
  · obtain ⟨-, rfl⟩ := (mem_holds _ _ _).mp hx
    rfl

theorem exec_of_failsACheck {i : Instr} {s : State} {d : Descriptor} (h : ReadsDescriptor i s d)
    (hfail : FailsACheck s (decodedIn s i).type d) : exec i s = .fault (gpFault s.mode) := by
  rw [exec_of_readsDescriptor h, afterRead_of_failsACheck hfail]

/-- Without a failed check an execution completes or is refused by decision D9. -/
theorem exec_ne_fault {i : Instr} {s : State} {d : Descriptor} (h : ReadsDescriptor i s d)
    (hpass : ¬ FailsACheck s (decodedIn s i).type d) (f : Fault) : exec i s ≠ .fault f := by
  obtain ⟨ht, hv⟩ := List.append_eq_nil_iff.mp (operandConditions_eq_nil.mpr hpass)
  rw [exec_of_readsDescriptor h, afterRead_of_noConditions ht hv]
  split <;> nofun

/-- Settles O28: a failed check ends the instruction with `#GP`, and without one nothing is raised. -/
theorem operandValueChecks : Obligations.OperandValueChecks :=
  fun _ _ _ h => ⟨exec_of_failsACheck h, exec_ne_fault h⟩

/-! ### Completion -/

/-- The operands that pass every check and are not those of decision D9 (`40_invpcid.md` rules R124, R130). -/
structure ValidOperands (s : State) (type : Word) (d : Descriptor) : Prop where
  type_le : type ≤ 3#64
  reserved : descReserved d = 0#52
  pcidAllowed : type = 0#64 ∨ type = 1#64 → PcidAllowed s d
  canonicalLinear : type = 0#64 → canonical s.cfg.laWidthDesc (descLinear d) = true

/-- Types 2 and 3 use neither field of the descriptor: its reserved bits alone are checked. -/
theorem validOperands_of_unusedFields {s : State} {type : Word} {d : Descriptor} (htype : type = 2#64 ∨ type = 3#64)
    (hres : descReserved d = 0#52) : ValidOperands s type d := by
  obtain rfl | rfl := htype <;> exact ⟨by decide, hres, fun h01 => absurd h01 (by decide), nofun⟩

/-- A PCID that is not 000H is named only where the source allows it: with `CR4.PCIDE = 1` in 64-bit mode. -/
theorem ValidOperands.pcide {s : State} {type : Word} {d : Descriptor} (h : ValidOperands s type d) :
    namesPcid type d = false ∨ (s.cr4Pcide = true ∧ s.mode = .sixtyFourBit) := by
  by_cases ht : type = 0#64 ∨ type = 1#64
  · exact (h.pcidAllowed ht).imp_left fun hzero => namesPcid_eq_false.mpr fun _ => hzero
  · exact .inl (namesPcid_eq_false.mpr fun ht' => absurd ht' ht)

theorem ValidOperands.valueConditions_eq_nil {s : State} {type : Word} {d : Descriptor} (h : ValidOperands s type d) :
    valueConditions s type d = [] := by
  refine (Machine.valueConditions_eq_nil ..).mpr ⟨h.reserved, fun hoff => ?_, h.canonicalLinear⟩
  obtain hn | ⟨hon, -⟩ := h.pcide
  · exact hn
  · cases hoff.symm.trans hon

theorem ValidOperands.disputedPcid_eq_false {s : State} {type : Word} {d : Descriptor} (h : ValidOperands s type d) :
    disputedPcid s type d = false := by
  obtain hn | ⟨-, hm⟩ := h.pcide
  · simp [disputedPcid, hn]
  · simp [disputedPcid, hm]

/-- VALID OPERANDS COMPLETE. -/
theorem exec_of_validOperands {i : Instr} {s : State} {d : Descriptor} (h : ReadsDescriptor i s d)
    (hv : ValidOperands s (decodedIn s i).type d) :
    exec i s = .next (complete s (decodedIn s i).type d i.length) :=
  exec_next.mpr ⟨d, h, hv.type_le, hv.valueConditions_eq_nil, hv.disputedPcid_eq_false, rfl⟩

/-- Settles O10: the next state of a completed execution, with the type and the length of the r32 form. -/
theorem validR32InvpcidCompletes : Obligations.ValidR32InvpcidCompletes :=
  fun _ _ _ _ _ h htype hres hpcid hcanon => exec_of_validOperands h ⟨htype, hres, hpcid, hcanon⟩

/-- Settles O11: the next state of a completed execution, with the type and the length of the r64 form. -/
theorem validR64InvpcidCompletes : Obligations.ValidR64InvpcidCompletes :=
  fun _ _ _ _ _ _ h htype hres hpcid hcanon => exec_of_validOperands h ⟨htype, hres, hpcid, hcanon⟩

/-! ### The must-sets -/

section mustSet
variable (pcid : Pcid) (linear : Word) (e : CacheEntry)

@[simp] theorem mustInvalidate_zero :
    mustInvalidate 0#64 pcid linear e = true ↔
      e.isGlobal = false ∧ e.pcid = pcid ∧ inRanges e.region linear.toNat = true := by
  simp [mustInvalidate, entryIsFor, and_assoc]

@[simp] theorem mustInvalidate_one :
    mustInvalidate 1#64 pcid linear e = true ↔ e.isGlobal = false ∧ e.pcid = pcid := by
  simp [mustInvalidate]

@[simp] theorem mustInvalidate_two : mustInvalidate 2#64 pcid linear e = true := rfl

@[simp] theorem mustInvalidate_three : mustInvalidate 3#64 pcid linear e = true ↔ e.isGlobal = false := by
  simp [mustInvalidate]

end mustSet

/-- The four types that pass the check of the type. -/
theorem type_cases {type : Word} (h : type ≤ 3#64) : type = 0#64 ∨ type = 1#64 ∨ type = 2#64 ∨ type = 3#64 := by
  bv_omega

/-- An entry lies outside the must-set of a valid type when it lies outside the set that the type's own rule names. -/
theorem mustInvalidate_eq_false {type : Word} (h : type ≤ 3#64) (pcid : Pcid) (linear : Word) (e : CacheEntry) :
    mustInvalidate type pcid linear e = false ↔
      (type = 0#64 → ¬(e.isGlobal = false ∧ e.pcid = pcid ∧ inRanges e.region linear.toNat = true)) ∧
      (type = 1#64 → ¬(e.isGlobal = false ∧ e.pcid = pcid)) ∧ type ≠ 2#64 ∧ (type = 3#64 → e.isGlobal = true) := by
  rw [← Bool.not_eq_true]
  obtain rfl | rfl | rfl | rfl := type_cases h <;> simp

/-- An entry of the must-set is gone. -/
theorem notMem_complete_tc {s : State} {type : Word} {d : Descriptor} {e : CacheEntry}
    (h : mustInvalidate type (descPcid d) (descLinear d) e = true) (len : Nat) : e ∉ (complete s type d len).tc := by
  intro he
  obtain ⟨-, hfalse, -⟩ := mem_invalidate.mp he
  cases h.symm.trans hfalse

/-- VALID OPERANDS REMOVE THE MUST-SET of their type, and no entry is added. -/
theorem exec_removes_mustSet {i : Instr} {s : State} {d : Descriptor} {type : Word} (h : ReadsDescriptor i s d)
    (htype : (decodedIn s i).type = type) (hv : ValidOperands s type d) :
    ∃ t, exec i s = .next t ∧ t.tc.Sublist s.tc ∧
      ∀ e, mustInvalidate type (descPcid d) (descLinear d) e = true → e ∉ t.tc := by
  subst htype
  exact ⟨_, exec_of_validOperands h hv, invalidate_sublist .., fun _ he => notMem_complete_tc he _⟩

/-- Settles O12: the must-set of type 0. -/
theorem typeZeroInvalidatesTheAddress : Obligations.TypeZeroInvalidatesTheAddress := by
  intro i s d h htype hres hpcid hcanon
  obtain ⟨t, ht, hsub, hgone⟩ := exec_removes_mustSet h htype ⟨by decide, hres, fun _ => hpcid, fun _ => hcanon⟩
  exact ⟨t, ht, hsub, fun e _ hg hp hr => hgone e ((mustInvalidate_zero ..).mpr ⟨hg, hp, hr⟩)⟩

/-- Settles O13: the must-set of type 1, which has no check of the linear address. -/
theorem typeOneInvalidatesThePcid : Obligations.TypeOneInvalidatesThePcid := by
  intro i s d h htype hres hpcid
  obtain ⟨t, ht, hsub, hgone⟩ := exec_removes_mustSet h htype ⟨by decide, hres, fun _ => hpcid, nofun⟩
  exact ⟨t, ht, hsub, fun e _ hg hp => hgone e ((mustInvalidate_one ..).mpr ⟨hg, hp⟩)⟩

/-- Settles O14: the must-set of type 2 is everything; a reserved bit is a failed check; and what completes has read its
descriptor. -/
theorem typeTwoEmptiesTheCaches : Obligations.TypeTwoEmptiesTheCaches := by
  intro i s hadm htype
  refine ⟨fun d hread hres => ?_, fun d hread hres => ?_, fun hunread t ht => ?_⟩
  · obtain ⟨t, ht, -, hgone⟩ :=
      exec_removes_mustSet ⟨hadm, hread⟩ htype (validOperands_of_unusedFields (.inl rfl) hres)
    exact ⟨t, ht, List.eq_nil_iff_forall_not_mem.mpr fun e => hgone e (mustInvalidate_two ..)⟩
  · exact exec_of_failsACheck ⟨hadm, hread⟩ (.inr (.inl hres))
  · obtain ⟨d, hread, -⟩ := exec_next.mp ht
    exact hunread d hread.readsValue

/-- Settles O15: the must-set of type 3. -/
theorem typeThreeInvalidatesAllButGlobal : Obligations.TypeThreeInvalidatesAllButGlobal := by
  intro i s d h htype hres
  obtain ⟨t, ht, hsub, hgone⟩ := exec_removes_mustSet h htype (validOperands_of_unusedFields (.inr rfl) hres)
  exact ⟨t, ht, hsub, fun e _ hg => hgone e ((mustInvalidate_three ..).mpr hg)⟩

/-- Settles O16: what is left lies outside the must-set of the type and is kept by the free choice. -/
theorem resultIsAFreeSubsetOutsideTheMustSet : Obligations.ResultIsAFreeSubsetOutsideTheMustSet := by
  intro i s t h
  obtain ⟨d, hread, htype, -, -, rfl⟩ := exec_next.mp h
  refine ⟨d, hread.readsValue, fun e => ?_⟩
  rw [complete_tc, mem_invalidate, mustInvalidate_eq_false htype, and_comm (b := Config.survives s.draw e = true)]

/-- Settles O18: with `CR4.PCIDE = 0` the check of the PCID allows 000H alone, and the caches held no other before. -/
theorem pcideOffConfinesToPcidZero : Obligations.PcideOffConfinesToPcidZero := by
  intro i s t hoff hzero h
  refine ⟨?_, fun e he _ => hzero hoff e he, (removesOnly_of_exec_next h).noPcidWhenDisabled hzero⟩
  obtain ⟨d, hread, -, hv, -, -⟩ := exec_next.mp h
  obtain ⟨-, hpcid, -⟩ := (valueConditions_eq_nil ..).mp hv
  exact ⟨d, hread.readsValue, namesPcid_eq_false.mp (hpcid hoff)⟩

end Sys2Proof.Machine
end

section
/-! SUPPORT. The exceptions of an execution, with no premise on `CR4.PCIDE`: when it raises and what, which conditions raise
which exception, and what each mode can report (`60_exceptions.md` rules R160 to R168). -/

namespace Sys2Proof.Machine

/-! ### The conditions of one execution -/

/-- In virtual-8086 mode the conditions are those of step A. -/
theorem conditionsOf_virtual8086 {s : State} (hm : s.mode = .virtual8086) (i : Instr) :
    conditionsOf i s = entryConditions (lockPresent i.prefixes) s := by simp [conditionsOf, hm]

/-- In the default order the conditions of step A stand first. -/
theorem exists_conditionsOf_eq_append (i : Instr) (s : State) :
    ∃ later, conditionsOf i s = entryConditions (lockPresent i.prefixes) s ++ later :=
  ⟨_, congrArg (entryConditions · s ++ _) (decodedIn_lock s i)⟩

theorem exists_conditionsOf_eq_cons {i : Instr} {s : State} {c : Condition} {cs : List Condition}
    (he : entryConditions (lockPresent i.prefixes) s = c :: cs) : ∃ cs', conditionsOf i s = c :: cs' := by
  obtain ⟨later, hc⟩ := exists_conditionsOf_eq_append i s
  exact ⟨cs ++ later, by rw [hc, he, List.cons_append]⟩

/-- Where step A holds nothing, virtual-8086 mode is excluded and the rest of the conditions are all. -/
theorem conditionsOf_of_noEntryConditions {i : Instr} {s : State}
    (he : entryConditions (lockPresent i.prefixes) s = []) :
    s.mode ≠ .virtual8086 ∧
      conditionsOf i s = raisedBy (operandRead i s) ++ typeConditions (decodedIn s i).type ++
        valueConditionsOf s (decodedIn s i).type (operandRead i s) := by
  obtain ⟨-, -, hm, -⟩ := (entryConditions_eq_nil _ _).mp he
  exact ⟨hm, by simp [conditionsOf, hm, he]⟩

/-! ### How an execution ends -/

/-- An execution that raises: it reports on the first condition that holds and on others that hold, beside them, in the state
of decision D9, on GP9. -/
def RaisesConditions (i : Instr) (s : State) : Prop :=
  ∃ c more, exec i s = raise s c more ∧ (∃ cs, conditionsOf i s = c :: cs) ∧
    ∀ x ∈ c :: more, x ∈ conditionsOf i s ∨ x = .gp9

theorem raisesConditions_of_entryConditions {i : Instr} {s : State} (hv : i.validIn s.mode = true)
    (hne : entryConditions (lockPresent i.prefixes) s ≠ []) : RaisesConditions i s := by
  by_cases hm : s.mode = .virtual8086
  · obtain ⟨c, cs, he, hraise⟩ := exec_virtual8086 hv hm
    have hc : conditionsOf i s = c :: cs := (conditionsOf_virtual8086 hm i).trans he
    exact ⟨c, cs, hraise, ⟨cs, hc⟩, fun x hx => .inl (hc ▸ hx)⟩
  · obtain ⟨c, cs, he⟩ := List.exists_cons_of_ne_nil hne
    obtain ⟨more, hraise, hmore⟩ := exec_of_entryConditions hv hm he
    exact ⟨c, more, hraise, exists_conditionsOf_eq_cons he, hmore⟩

/-- HOW AN EXECUTION ENDS where its form is encodable, in every state: it raises; it is refused by its operand read; or,
without a condition and with its operand read, it is refused by decision D9 or completes. -/
theorem exec_endings {i : Instr} {s : State} (hv : i.validIn s.mode = true) :
    RaisesConditions i s ∨
    (∃ r, entryConditions (lockPresent i.prefixes) s = [] ∧ operandRead i s = .refused r ∧ exec i s = .refused r) ∨
    (conditionsOf i s = [] ∧ ∃ d, operandRead i s = .value d ∧
      exec i s = if disputedPcid s (decodedIn s i).type d then .refused .pcideOutside64BitMode
        else .next (complete s (decodedIn s i).type d i.length)) := by
  by_cases he : entryConditions (lockPresent i.prefixes) s = []
  · obtain ⟨hm, hc⟩ := conditionsOf_of_noEntryConditions he
    rw [RaisesConditions, exec_onOperand hv hm, hc, he]
    generalize (decodedIn s i).type = type
    cases operandRead i s with
    | value d =>
      rw [raisedBy, valueConditionsOf, List.nil_append, runOnOperand, afterRead, List.nil_append]
      cases typeConditions type ++ valueConditions s type d with
      | nil => exact .inr (.inr ⟨rfl, d, rfl, rfl⟩)
      | cons c cs =>
        refine .inl ⟨c, cs ++ holds (disputedPcid s type d) .gp9, rfl, ⟨cs, rfl⟩, fun x hx => ?_⟩
        rw [← List.cons_append, List.mem_append, mem_holds] at hx
        exact hx.imp_right And.right
    | raised c cs =>
      rw [raisedBy, valueConditionsOf, List.append_nil]
      exact .inl ⟨c, cs ++ typeConditions type, rfl, ⟨_, rfl⟩, fun x hx => .inl hx⟩
    | refused r => exact .inr (.inl ⟨r, rfl, rfl, rfl⟩)
  · exact .inl (raisesConditions_of_entryConditions hv he)

theorem RaisesConditions.exists_fault {i : Instr} {s : State} (h : RaisesConditions i s) : ∃ f, exec i s = .fault f := by
  obtain ⟨c, more, hraise, -, -⟩ := h
  exact ⟨_, hraise⟩

/-- WHERE A FAULT COMES FROM in every state: a condition that holds, or, by decision D9, GP9. -/
theorem exists_condition_of_exec_fault {i : Instr} {s : State} {f : Fault} (h : exec i s = .fault f) :
    ∃ c, (c ∈ conditionsOf i s ∨ c = .gp9) ∧ f = c.fault s.mode := by
  obtain ⟨c, more, hraise, -, hmore⟩ | ⟨r, -, -, hr⟩ | ⟨-, d, -, hd⟩ := exec_endings (validIn_of_exec_fault h)
  · obtain ⟨x, hx, hfault⟩ := raise_fault s c more
    exact ⟨x, hmore x hx, Host.Outcome.fault.inj (h.symm.trans (hraise.trans hfault))⟩
  · cases hr.symm.trans h
  · rw [hd] at h
    split at h <;> cases h

/-- Settles O29: a fault comes from raising the conditions that hold, and `raise` reports one of those it is given. -/
theorem reportedFaultIsOfAConditionThatHolds : Obligations.ReportedFaultIsOfAConditionThatHolds := by
  intro i s f hp h
  obtain ⟨c, cs, hc, hr⟩ := exec_fault hp h
  obtain ⟨x, hx, hfault⟩ := raise_fault s c cs
  exact ⟨x, hc ▸ hx, Host.Outcome.fault.inj (hr.symm.trans hfault)⟩

/-- Settles O30: of the three endings under the source's invariant only the last completes, and only there no condition holds
and the operand read gives a value. -/
theorem completesExactlyWithoutConditions : Obligations.CompletesExactlyWithoutConditions := by
  intro i s hv hp
  obtain ⟨c, cs, hc, he⟩ | ⟨r, -, -, hread, he⟩ | ⟨d, -, hc, hread, he⟩ := exec_cases hv hp
  · simp [hc, he]
  · simp [hread, he]
  · simp [hc, hread, he]

/-- Settles O31: an execution that does not raise is refused by its operand read, with nothing of step A, or no condition
holds for it. -/
theorem aConditionThatHoldsFaults : Obligations.AConditionThatHoldsFaults := by
  intro i s hv hne hor
  obtain hraises | ⟨r, he, hread, -⟩ | ⟨hnil, -⟩ := exec_endings hv
  · exact hraises.exists_fault
  · exact (hor.elim (· he) (· r hread)).elim
  · exact absurd hnil hne

/-- Settles O32: the conditions raised are those that hold, and where they raise one exception `raise` reports it. -/
theorem oneExceptionIsReportedForEveryChoice : Obligations.OneExceptionIsReportedForEveryChoice := by
  rintro i s f hp ⟨f', h⟩ hsame
  obtain ⟨c, cs, hc, hr⟩ := exec_fault hp h
  rw [hc] at hsame
  rw [h, ← hr, raise_of_all_same hsame]

/-! ### The exceptions of each mode -/

/-- Step A raises `#UD` or `#GP`. -/
theorem fault_of_mem_entryConditions {lock : Bool} {s : State} {c : Condition} (h : c ∈ entryConditions lock s) (m : Mode) :
    c.fault m = .ud ∨ c.fault m = gpFault m := by
  simp only [entryConditions, recognitionConditions, List.mem_append, mem_holds] at h
  obtain ((⟨-, rfl⟩ | ⟨-, rfl⟩) | ⟨-, rfl⟩) | ⟨-, rfl⟩ := h
  · exact .inl rfl
  · exact .inl rfl
  · exact .inr rfl
  · exact .inr rfl

/-- The operand read ends with the conditions before paging or with page faults. -/
theorem mem_raisedBy_memRead {s : State} {size : AddrSize} {r : SegReg} {ea : Word} {c : Condition}
    (h : c ∈ raisedBy (memRead s size r ea)) : c ∈ addressConditions s r ea ∨ c ∈ pageConditions s r ea := by
  obtain ⟨-, hr⟩ | ⟨-, ⟨a, as, ha, hr⟩ | ⟨-, ⟨-, hr⟩ | ⟨-, ⟨a, as, hp, hr⟩ | ⟨-, ⟨-, hr⟩ | ⟨-, hr⟩⟩⟩⟩⟩ :=
    memRead_cases s size r ea <;> rw [hr] at h
  · cases h
  · exact .inl (ha ▸ h)
  · cases h
  · exact .inr (hp ▸ h)
  · cases h
  · cases h

/-- In real-address mode there is no paging. -/
theorem pageConditions_realAddress {s : State} (hm : s.mode = .realAddress) (r : SegReg) (ea : Word) :
    pageConditions s r ea = [] := by
  have hoff : pagingOff s = true := by simp only [pagingOff, hm]
  exact pageConditions_eq_nil.mpr fun k _ => ⟨_, translateAddr_pagingOff hoff .read _⟩

/-- In real-address mode the operand read raises nothing. -/
theorem ne_realAddress_of_mem_raisedBy {s : State} {size : AddrSize} {r : SegReg} {ea : Word} {c : Condition}
    (h : c ∈ raisedBy (memRead s size r ea)) : s.mode ≠ .realAddress := by
  intro hm
  have hnone := mem_raisedBy_memRead h
  simp [addressConditions_realAddress hm, pageConditions_realAddress hm] at hnone

/-- Elsewhere it raises `#SS(0)`, `#GP(0)` or `#PF`. -/
theorem fault_of_mem_raisedBy {s : State} {size : AddrSize} {r : SegReg} {ea : Word} {c : Condition}
    (h : c ∈ raisedBy (memRead s size r ea)) :
    c.fault s.mode = gpFault s.mode ∨ c.fault s.mode = .ss 0 ∨ ∃ code, c.fault s.mode = .pf code := by
  rw [gpFault_of_ne_realAddress (ne_realAddress_of_mem_raisedBy h)]
  obtain ha | hp := mem_raisedBy_memRead h
  · rw [fault_of_mem_addressConditions ha, segmentFault]
    split
    · exact .inr (.inl rfl)
    · exact .inl rfl
  · obtain ⟨-, -, code, -, rfl⟩ := mem_pageConditions.mp hp
    exact .inr (.inr ⟨code, rfl⟩)

/-- A condition that holds raises `#UD` or the `#GP` of the mode; in the modes that check the operand's address, also `#SS(0)`
or `#PF`. -/
theorem fault_of_mem_conditionsOf {i : Instr} {s : State} {c : Condition} (h : c ∈ conditionsOf i s) :
    c.fault s.mode = .ud ∨ c.fault s.mode = gpFault s.mode ∨
      (s.mode ≠ .realAddress ∧ s.mode ≠ .virtual8086 ∧
        (c.fault s.mode = .ss 0 ∨ ∃ code, c.fault s.mode = .pf code)) := by
  by_cases hm : s.mode = .virtual8086
  · rw [conditionsOf_virtual8086 hm] at h
    exact (fault_of_mem_entryConditions h _).imp_right .inl
  · obtain hc | hc | hc | hc := (mem_conditionsOf hm).mp h
    · exact (fault_of_mem_entryConditions hc _).imp_right .inl
    · exact .inr ((fault_of_mem_raisedBy hc).imp_right fun hf => ⟨ne_realAddress_of_mem_raisedBy hc, hm, hf⟩)
    · exact .inr (.inl (fault_of_mem_typeConditions hc _))
    · exact .inr (.inl (fault_of_mem_valueConditionsOf hc _))

/-- Every fault of an execution is one its mode lists. -/
theorem exec_fault_of_mode {i : Instr} {s : State} {f : Fault} (h : exec i s = .fault f) :
    f = .ud ∨ f = gpFault s.mode ∨
      (s.mode ≠ .realAddress ∧ s.mode ≠ .virtual8086 ∧ (f = .ss 0 ∨ ∃ code, f = .pf code)) := by
  obtain ⟨c, hc | rfl, rfl⟩ := exists_condition_of_exec_fault h
  · exact fault_of_mem_conditionsOf hc
  · exact .inr (.inl rfl)

/-- Settles O34: the exceptions of the conditions, with the error code of `#GP` in the mode. -/
theorem exceptionsOfEachMode : Obligations.ExceptionsOfEachMode := by
  intro i s f h
  have hf := exec_fault_of_mode h
  refine ⟨fun hm => ?_, fun hm => ?_, fun hr _ => ?_⟩
  · have hgp : gpFault s.mode = .gp none := if_pos hm
    rw [hgp] at hf
    tauto
  · rw [gpFault_of_ne_realAddress (by simp [hm])] at hf
    tauto
  · rw [gpFault_of_ne_realAddress hr] at hf
    tauto

/-! ### LOCK, a missing feature, and virtual-8086 mode -/

/-- With LOCK or without the feature the first condition of step A is UD2 or UD1. -/
theorem entryConditions_of_lockOrMissingFeature {lock : Bool} {s : State} (h : lock = true ∨ s.cfg.hasInvpcid = false) :
    ∃ c cs, entryConditions lock s = c :: cs ∧ (c = .ud1 ∨ c = .ud2) := by
  cases lock with
  | true => exact ⟨.ud2, _, rfl, .inr rfl⟩
  | false =>
    have hf : s.cfg.hasInvpcid = false := by simpa using h
    exact ⟨.ud1, _, by rw [entryConditions, recognitionConditions, hf]; rfl, .inl rfl⟩

/-- Without LOCK and with the feature, step A holds GP1 alone in virtual-8086 mode. -/
theorem entryConditions_gp1 {s : State} (hf : s.cfg.hasInvpcid = true) (hm : s.mode = .virtual8086) :
    entryConditions false s = [.gp1] := by
  simp [entryConditions, recognitionConditions, holds, hf, hm]

/-- Settles O23: step A raises UD2 or UD1 first; the conditions beside it decide only where the order is free. -/
theorem lockOrMissingFeatureFaults : Obligations.LockOrMissingFeatureFaults := by
  intro i s hv h
  obtain ⟨c, cs, he, hud⟩ := entryConditions_of_lockOrMissingFeature h
  have hraises : RaisesConditions i s := raisesConditions_of_entryConditions hv (by simp [he])
  refine ⟨hraises.exists_fault, fun honly hp => ?_, fun hd => ?_⟩
  · refine oneExceptionIsReportedForEveryChoice i s .ud hp hraises.exists_fault fun x hx => ?_
    obtain rfl | rfl := honly x hx <;> rfl
  · obtain ⟨first, more, hraise, ⟨_, hfirst⟩, -⟩ := hraises
    obtain ⟨_, hc⟩ := exists_conditionsOf_eq_cons he
    obtain rfl : c = first := (List.cons.inj (hc.symm.trans hfirst)).1
    rw [hraise, raise_default hd]
    obtain rfl | rfl := hud <;> rfl

/-- Settles O22: GP1 is a condition of step A, alone there without LOCK and with the feature; otherwise the execution faults
as every execution with LOCK or without the feature does, by an exception of the mode. -/
theorem virtual8086AlwaysFaults : Obligations.Virtual8086AlwaysFaults := by
  intro ps reg mem s hm
  have hv : (Instr.invpcidR32 ps reg mem).validIn s.mode = true := by simp [Instr.validIn, hm]
  constructor
  · intro hlock hf
    obtain ⟨c, cs, he, hraise⟩ := exec_virtual8086 hv hm
    have hgp1 : entryConditions (lockPresent ps) s = [.gp1] := hlock ▸ entryConditions_gp1 hf hm
    obtain ⟨rfl, rfl⟩ := List.cons.inj (he.symm.trans hgp1)
    rw [hraise, ← gpFault_of_ne_realAddress (m := s.mode) (by simp [hm])]
    exact raise_of_all_same fun x hx => by rw [List.mem_singleton.mp hx]; rfl
  · intro h
    obtain ⟨⟨f, hfault⟩, -⟩ := lockOrMissingFeatureFaults _ s hv h
    obtain ⟨-, hv86, -⟩ := exceptionsOfEachMode _ s f hfault
    obtain rfl | rfl := hv86 hm
    · exact .inl hfault
    · exact .inr hfault

end Sys2Proof.Machine
end

section
/-! SUPPORT. What an execution does not use: the fields of the descriptor that its type does not name (`40_invpcid.md` rules
R133, R134), and the upper halves of the registers in the r32 form (rule R120). Two runs with one draw then end alike. -/

namespace Sys2Proof.Machine

/-! ### Outcomes of two runs -/

/-- The same outcome, with the next state of a completion changed by `u`. -/
def mapNext (u : State → State) : Outcome → Outcome
  | .next t => .next (u t)
  | .fault f => .fault f
  | .refused r => .refused r

@[simp] theorem mapNext_raise (u : State → State) (s : State) (c : Condition) (cs : List Condition) :
    mapNext u (raise s c cs) = raise s c cs := rfl

theorem mapNext_congr {u u' : State → State} {o : Outcome} (h : ∀ t, o = .next t → u t = u' t) :
    mapNext u o = mapNext u' o := by
  cases o with
  | next t => exact congrArg _ (h t rfl)
  | fault f => rfl
  | refused r => rfl

/-- The three clauses that a statement on two runs has. -/
theorem clauses_of_eq_mapNext {u : State → State} {o o' : Outcome} (h : o' = mapNext u o) :
    (∀ t, o = .next t → o' = .next (u t)) ∧ (∀ f, o = .fault f → o' = .fault f) ∧
      (∀ r, o = .refused r → o' = .refused r) := by
  subst h
  exact ⟨by rintro _ rfl; rfl, by rintro _ rfl; rfl, by rintro _ rfl; rfl⟩

/-! ### The fields of the descriptor that a type uses -/

/-- The descriptors agree in the reserved bits, which every type checks, and in the fields that the type uses: the PCID for
types 0 and 1, the linear address for type 0 (`40_invpcid.md` rules R124 to R128). -/
structure UsedFieldsAgree (type : Word) (d d' : Descriptor) : Prop where
  reserved : descReserved d = descReserved d'
  pcid : type = 0#64 ∨ type = 1#64 → descPcid d = descPcid d'
  linear : type = 0#64 → descLinear d = descLinear d'

/-- Bits 63:0 hold the PCID and the reserved bits, all that a type other than 0 uses. -/
theorem usedFieldsAgree_of_low64 {type : Word} {d d' : Descriptor} (htype : type ≠ 0#64)
    (h : d.extractLsb' 0 64 = d'.extractLsb' 0 64) : UsedFieldsAgree type d d' := by
  have hsub (a n : Nat) (hn : a + n ≤ 64) : d.extractLsb' a n = d'.extractLsb' a n := by
    rw [← BitVec.extractLsb'_extractLsb'_of_le hn, h, BitVec.extractLsb'_extractLsb'_of_le hn]
  exact ⟨hsub 12 52 (by decide), fun _ => hsub 0 12 (by decide), fun h0 => absurd h0 htype⟩

/-- Types 2 and 3 use the reserved bits alone. -/
theorem usedFieldsAgree_of_reserved {type : Word} {d d' : Descriptor} (htype : type = 2#64 ∨ type = 3#64)
    (h : descReserved d = descReserved d') : UsedFieldsAgree type d d' := by
  obtain rfl | rfl := htype <;> exact ⟨h, fun h01 => absurd h01 (by decide), nofun⟩

section usedFields
variable {type : Word} {d d' : Descriptor} (h : UsedFieldsAgree type d d')
include h

theorem UsedFieldsAgree.namesPcid_eq : namesPcid type d = namesPcid type d' := by
  by_cases ht : type = 0#64 ∨ type = 1#64
  · rw [namesPcid, namesPcid, h.pcid ht]
  · rw [namesPcid_eq_false.mpr (absurd · ht), namesPcid_eq_false.mpr (absurd · ht)]

theorem UsedFieldsAgree.valueConditions_eq (s : State) : valueConditions s type d = valueConditions s type d' := by
  rw [valueConditions, valueConditions, h.reserved, h.namesPcid_eq]
  by_cases ht : type = 0#64
  · rw [h.linear ht]
  · simp [ht]

theorem UsedFieldsAgree.disputedPcid_eq (s : State) : disputedPcid s type d = disputedPcid s type d' := by
  rw [disputedPcid, disputedPcid, h.namesPcid_eq]

theorem UsedFieldsAgree.mustInvalidate_eq (e : CacheEntry) :
    mustInvalidate type (descPcid d) (descLinear d) e = mustInvalidate type (descPcid d') (descLinear d') e := by
  by_cases h0 : type = 0#64
  · rw [h.pcid (.inl h0), h.linear h0]
  · by_cases h1 : type = 1#64
    · simp only [mustInvalidate, if_neg h0, h.pcid (.inr h1)]
    · simp only [mustInvalidate, if_neg h0, if_neg h1]

theorem UsedFieldsAgree.complete_eq (s : State) (len : Nat) : complete s type d len = complete s type d' len := by
  simp only [complete, invalidate, h.mustInvalidate_eq]

/-- After the read, descriptors that agree in the used fields end alike. -/
theorem UsedFieldsAgree.afterRead_eq (s : State) (entry : List Condition) (len : Nat) :
    afterRead s entry type d len = afterRead s entry type d' len := by
  simp only [afterRead, h.valueConditions_eq, h.disputedPcid_eq, h.complete_eq]

end usedFields

/-- Two operand reads that an execution with this type cannot tell apart. -/
inductive ReadsAlike (type : Word) : ReadResult → ReadResult → Prop
  | same (r : ReadResult) : ReadsAlike type r r
  | values {d d' : Descriptor} (h : UsedFieldsAgree type d d') : ReadsAlike type (.value d) (.value d')

theorem ReadsAlike.runOnOperand_eq {type : Word} {r r' : ReadResult} (h : ReadsAlike type r r') (s : State)
    (entry : List Condition) (len : Nat) : runOnOperand s entry type r len = runOnOperand s entry type r' len := by
  cases h with
  | same => rfl
  | values h => exact h.afterRead_eq s entry len

/-! ### Other registers and another memory -/

/-- `s` with other registers and another memory. Once the operand is addressed and read, an execution looks at neither. -/
def withRegsMem (g : Gprs) (m : Memory) (s : State) : State := { s with regs := g, mem := m }

section withRegsMem
variable (g : Gprs) (m : Memory) (s : State)

@[simp] theorem withRegsMem_mode : (withRegsMem g m s).mode = s.mode := rfl

@[simp] theorem raise_withRegsMem (c : Condition) (cs : List Condition) :
    raise (withRegsMem g m s) c cs = raise s c cs := rfl

@[simp] theorem entryConditions_withRegsMem (lock : Bool) :
    entryConditions lock (withRegsMem g m s) = entryConditions lock s := rfl

@[simp] theorem valueConditions_withRegsMem (type : Word) (d : Descriptor) :
    valueConditions (withRegsMem g m s) type d = valueConditions s type d := rfl

@[simp] theorem disputedPcid_withRegsMem (type : Word) (d : Descriptor) :
    disputedPcid (withRegsMem g m s) type d = disputedPcid s type d := rfl

@[simp] theorem complete_withRegsMem (type : Word) (d : Descriptor) (len : Nat) :
    complete (withRegsMem g m s) type d len = withRegsMem g m (complete s type d len) := rfl

theorem afterRead_withRegsMem (entry : List Condition) (type : Word) (d : Descriptor) (len : Nat) :
    afterRead (withRegsMem g m s) entry type d len = mapNext (withRegsMem g m) (afterRead s entry type d len) := by
  simp only [afterRead, valueConditions_withRegsMem, disputedPcid_withRegsMem, complete_withRegsMem, raise_withRegsMem]
  cases entry ++ typeConditions type ++ valueConditions s type d with
  | nil => by_cases hd : disputedPcid s type d = true <;> simp only [hd, mapNext] <;> rfl
  | cons c cs => rfl

theorem runOnOperand_withRegsMem (entry : List Condition) (type : Word) (r : ReadResult) (len : Nat) :
    runOnOperand (withRegsMem g m s) entry type r len =
      mapNext (withRegsMem g m) (runOnOperand s entry type r len) := by
  cases r with
  | value d => exact afterRead_withRegsMem g m s entry type d len
  | raised c cs => cases entry <;> rfl
  | refused why => cases entry <;> rfl

end withRegsMem

/-- TWO RUNS WITH ONE DRAW END ALIKE where they have the same decoded parts and operand reads that cannot be told apart. -/
theorem exec_withRegsMem {i : Instr} {s : State} {g : Gprs} {m : Memory}
    (hparts : decodedIn (withRegsMem g m s) i = decodedIn s i)
    (hread : ReadsAlike (decodedIn s i).type (operandRead i s) (operandRead i (withRegsMem g m s))) :
    exec i (withRegsMem g m s) = mapNext (withRegsMem g m) (exec i s) := by
  by_cases hv : i.validIn s.mode = true
  · by_cases hm : s.mode = .virtual8086
    · obtain ⟨c, cs, he, hraise⟩ := exec_virtual8086 hv hm
      obtain ⟨c', cs', he', hraise'⟩ := exec_virtual8086 (s := withRegsMem g m s) hv hm
      obtain ⟨rfl, rfl⟩ := List.cons.inj (he.symm.trans he')
      rw [hraise, hraise', raise_withRegsMem, mapNext_raise]
    · rw [exec_onOperand hv hm, exec_onOperand (s := withRegsMem g m s) hv hm, hparts, runOnOperand_withRegsMem,
        entryConditions_withRegsMem, hread.runOnOperand_eq]
  · rw [exec_eq, exec_eq, withRegsMem_mode, if_neg hv, if_neg hv]
    rfl

/-! ### Another memory -/

/-- Another memory from which the descriptor reads alike changes nothing but itself. -/
theorem exec_withMem {i : Instr} {s : State} {m : Memory} {d d' : Descriptor}
    (hread : operandRead i s = .value d) (hread' : operandRead i { s with mem := m } = .value d')
    (h : UsedFieldsAgree (decodedIn s i).type d d') :
    exec i { s with mem := m } = mapNext (fun t => { t with mem := m }) (exec i s) := by
  have hparts : decodedIn (withRegsMem s.regs m s) i = decodedIn s i := by cases i <;> rfl
  have halike : ReadsAlike (decodedIn s i).type (operandRead i s) (operandRead i (withRegsMem s.regs m s)) :=
    hread ▸ hread' ▸ .values h
  refine (exec_withRegsMem hparts halike).trans (mapNext_congr fun t ht => ?_)
  obtain ⟨_, _, _, -, rfl⟩ := removesOnly_of_exec_next ht
  rfl

/-- Settles O19: a type other than 0 uses bits 63:0 of the descriptor alone. -/
theorem linearAddressUnusedByTypesOneToThree : Obligations.LinearAddressUnusedByTypesOneToThree :=
  fun _ _ _ _ _ htype hread hread' h => clauses_of_eq_mapNext (exec_withMem hread hread' (usedFieldsAgree_of_low64 htype h))

/-- Settles O20: types 2 and 3 use the reserved bits of the descriptor alone. -/
theorem pcidUnusedByTypesTwoAndThree : Obligations.PcidUnusedByTypesTwoAndThree :=
  fun _ _ _ _ _ htype hread hread' h =>
    clauses_of_eq_mapNext (exec_withMem hread hread' (usedFieldsAgree_of_reserved htype h))

/-! ### The upper halves of the registers -/

/-- A write that keeps the low half of its register keeps the low half of every register. -/
theorem x32_writeReg {s : State} {r : Reg} {v : Word} (h : v.extractLsb' 0 32 = (readReg s r).extractLsb' 0 32)
    (n : BitVec 4) : x32 (writeReg s r v) n = x32 s n := by
  rw [x32, x64, readReg_writeReg]
  by_cases hr : regOfNumber n = r
  · rw [if_pos hr, h, x32, x64, hr]
  · rw [if_neg hr, x32, x64]

theorem x16_eq_of_x32_eq {s s' : State} {n : BitVec 4} (h : x32 s' n = x32 s n) : x16 s' n = x16 s n := by
  have hlow (u : State) : x16 u n = (x32 u n).extractLsb' 0 16 := (BitVec.extractLsb'_extractLsb'_of_le (by decide)).symm
  rw [hlow, hlow, h]

section lowHalves
variable {s s' : State} (hlow : ∀ n, x32 s' n = x32 s n)
include hlow

theorem effAddr16_of_x32_eq (ea : Ea16) : effAddr16 s' ea = effAddr16 s ea := by
  cases ea with
  | absolute d => rfl
  | based b d => cases b <;> simp only [effAddr16, base16Value, x16_eq_of_x32_eq (hlow _)]

theorem effAddr32_of_x32_eq (hm : s'.mode = s.mode) (hrip : s'.rip = s.rip) (rex : Option Rex) (len : Nat) (ea : EaLong) :
    effAddr32 s' rex len ea = effAddr32 s rex len ea := by
  cases ea <;> simp only [effAddr32, indexTerm32, hlow, hm, hrip]

/-- A 16- or 32-bit effective address is made of the low halves of the registers (`30_encoding.md` rules R85, R86). -/
theorem effAddr_of_x32_eq (hm : s'.mode = s.mode) (hrip : s'.rip = s.rip) (rex : Option Rex) (len : Nat) {mem : MemOperand}
    (hsize : mem.size ≠ .a64) : effAddr s' rex len mem = effAddr s rex len mem := by
  cases mem with
  | addr16 ea => rw [effAddr, effAddr, effAddr16_of_x32_eq hlow]
  | addr32 ea => rw [effAddr, effAddr, effAddr32_of_x32_eq hlow hm hrip]
  | addr64 ea => exact absurd rfl hsize

/-- The r32 form decodes to the same parts where the low halves of the registers are the same. -/
theorem decodedIn_invpcidR32_of_x32_eq (hm : s'.mode = s.mode) (hrip : s'.rip = s.rip) (ps : List Prefix) (reg : BitVec 3)
    {mem : MemOperand} (hsize : mem.size ≠ .a64) :
    decodedIn s' (.invpcidR32 ps reg mem) = decodedIn s (.invpcidR32 ps reg mem) := by
  simp only [decodedIn, typeR32, hlow, hm, effAddr_of_x32_eq hlow hm hrip none _ hsize]

end lowHalves

/-- A register write that leaves the decoded parts as they are changes nothing but itself. -/
theorem exec_writeReg {i : Instr} {s : State} {r : Reg} {v : Word} (hparts : decodedIn (writeReg s r v) i = decodedIn s i) :
    exec i (writeReg s r v) = mapNext (writeReg · r v) (exec i s) := by
  have hread : operandRead i (writeReg s r v) = operandRead i s := by
    rw [operandRead, hparts, writeReg_eq, memRead_withRegs, operandRead]
  have hw : writeReg s r v = withRegsMem (writeReg s r v).regs s.mem s := writeReg_eq s r v
  rw [hw] at hparts hread ⊢
  rw [exec_withRegsMem hparts (hread ▸ .same _)]
  refine mapNext_congr fun t ht => ?_
  obtain ⟨_, _, _, -, rfl⟩ := removesOnly_of_exec_next ht
  cases r <;> rfl

/-- Settles O21: the r32 form has its type and its operand's address from the low halves of the registers. -/
theorem r32IgnoresUpperRegisterHalves : Obligations.R32IgnoresUpperRegisterHalves := by
  intro ps reg mem s r upper hsize
  have hlow := x32_writeReg (s := s) (r := r) (v := upper ++ (readReg s r).extractLsb' 0 32)
    BitVec.extractLsb'_append_eq_right
  have hparts := decodedIn_invpcidR32_of_x32_eq hlow (writeReg_mode ..) (writeReg_rip ..) ps reg hsize
  obtain ⟨hnext, hfault, -⟩ := clauses_of_eq_mapNext (exec_writeReg hparts)
  exact ⟨hnext, hfault⟩

end Sys2Proof.Machine
end
